-- ==== Sys2Proof/Word.lean ====
section
/-! DEFINITION. The word types of the core (00_scope.md R6, R9, R10). -/

namespace Sys2Proof

/-- A register, an ALU operand, an immediate, an address: a 64-bit pattern, `XLEN` of R6 and R10. -/
abbrev Word := BitVec 64

/-- One byte of data memory (R35). -/
abbrev Byte := BitVec 8

/-- An instruction word, `ILEN` of R6; bit 0 is the least significant (R9, R68). -/
abbrev InstrWord := BitVec 32

/-- A register index: 5 bits, so always in range (R23). -/
abbrev RegIdx := BitVec 5

end Sys2Proof
end

