-- ==== Sys2Proof/Config.lean ====
section
/-! DEFINITION. The fixed parameters of this hardware (00_scope.md R6) and what an unlisted data byte reads as. -/

namespace Sys2Proof.Config

/-- `NREGS` of R6. -/
abbrev nRegs : Nat := 32

/-- `DMEM_SIZE` of R6: data addresses 0 to 1023. -/
abbrev dmemSize : Nat := 1024

/-- `ACCESS_BYTES` of R6: every load and every store moves 8 bytes. -/
abbrev accessBytes : Nat := 8

/-- `IMEM_CAP` of R6: the largest number of entries of the instruction store. -/
abbrev imemCap : Nat := 256

/-- `RESET_PC` of R6. -/
abbrev resetPc : Word := 0#64

/-- The distance between two consecutive instructions (R26). -/
abbrev instrBytes : Word := 4#64

/-- What a byte of data memory reads as when the memory lists nothing for it.
DESIGN CHOICE (log entry 4), unsafe: the spec leaves `DMEM_INIT` a parameter (R37, D12); here it is what
`State.reset` holds, and `launch` and `applyReset` take any other `DMEM_INIT` as an argument. -/
abbrev unlistedByte : Byte := 0#8

end Sys2Proof.Config
end

