-- ==== Sys2Proof/Machine/State.lean ====
section
/-! DEFINITION. The state of the machine (10_state.md R20), the faults and refusals, and the state after reset (R37). -/

namespace Sys2Proof.Machine

/-- The fatal faults and what each records (60_exceptions.md R211). A fault is recorded in `status` (R217), so a
faulting tick answers a NEXT state and no step answers `Host.Outcome.fault` (log entry 6). All are safe: a faulted
state is never a normal end (R210). -/
inductive Fault where
  /-- Raised by the fetch, step 1, when no entry of the instruction store has the address `pc` (R215). Safe. -/
  | instructionFetchFault (pc : Word)
  /-- Raised by the decode, step 2, for an opcode outside 3, 19, 35, 51 and 99 (R212). Safe. -/
  | unsupportedOpcode (word : InstrWord)
  /-- Raised by the execute step, step 3, for an (ALUOp, funct7, funct3) with no ALU control entry (R213). Safe. -/
  | unresolvedAluOperation (aluOp : BitVec 2) (funct7 : BitVec 7) (funct3 : BitVec 3)
  /-- Raised by the memory step, step 4, when the 8-byte access does not lie in data memory (R214). Safe. -/
  | addressOutOfRange (addr : Word)
  deriving DecidableEq, Repr

/-- Why the model gives something no meaning. `exec` and `step` never refuse: every instruction has its meaning. -/
inductive Refusal where
  /-- An instruction without a meaning, by its mnemonic; no arm of `exec` raises it. Safe. -/
  | notModelled (mnemonic : String)
  /-- Raised by `launch`: the instruction store has no entry (R242(a), D24). Safe. -/
  | emptyInstructionStore
  /-- Raised by `launch`: more than 256 entries (R242(a)). Safe. -/
  | tooManyEntries
  /-- Raised by `launch`: two entries carry one address (R242(b), D13). Safe. -/
  | duplicateAddress
  /-- Raised by `launch`: LAST_ADDR is not the largest address of the store (R242(d)). Safe. -/
  | lastAddrNotLargest
  deriving DecidableEq, Repr

/-- The run status (R30). -/
inductive Status where
  | running
  | halted
  | faulted (cause : Fault)
  deriving DecidableEq, Repr

/-- Data memory: the listed (address, byte) pairs, in the canonical form of `Memory.wf`. -/
abbrev Memory := List Host.Cell

/-- The instruction store: a finite partial map from address to 32-bit word (R51), addresses as numbers. -/
abbrev InstrStore := List (Nat × InstrWord)

/-- Everything the spec gives the machine: the five items of R20, and the parameters `IMEM` and `LAST_ADDR` of R7,
which no step changes (R36; log entry 1). -/
structure State where
  /-- The general registers `x[0..31]` (R21); none is hardwired (R22). -/
  x : Vector Word Config.nRegs
  /-- The program counter (R25). -/
  pc : Word
  /-- The number of completed ticks (R29). -/
  clock : Word
  /-- Data memory `DMEM[0..1023]` (R35). -/
  mem : Memory
  /-- The run status (R30). -/
  status : Status
  /-- The instruction store `IMEM` (R7, R36). -/
  imem : InstrStore
  /-- `LAST_ADDR`, the marker of the highest instruction address (R7, R51). -/
  lastAddr : Word
  deriving DecidableEq, Repr

/-- The state after reset (R37). No program is loaded: `imem` is empty and `lastAddr` 0 (DESIGN CHOICE, log entry 3);
data memory lists nothing (DESIGN CHOICE for `DMEM_INIT`, log entry 4). -/
def State.reset : State where
  x := Vector.replicate Config.nRegs 0#64
  pc := Config.resetPc
  clock := 0#64
  mem := []
  status := .running
  imem := []
  lastAddr := 0#64

end Sys2Proof.Machine
end

