-- ==== Sys2Proof/Machine/Flags.lean ====
section
/-! DEFINITION. The one flag of the hardware: the ALU's zero output, which is not state (10_state.md R31). -/

namespace Sys2Proof.Machine

/-- "zero-flag = (result == 0)" (R130). -/
def zeroFlag (result : Word) : Bool := result == 0#64

end Sys2Proof.Machine
end

