-- ==== Sys2Proof/Machine/Alu.lean ====
section
/-! DEFINITION. The ALU (40_blocks.md R124 to R131). -/

namespace Sys2Proof.Machine

/-- The five ALU operations, an enumeration without numeric codes (R119, D19). -/
inductive AluOp where
  | add | sub | and | or | sll
  deriving DecidableEq, Repr

/-- The shift distance: the low 6 bits of operand 2 (R129, D4). -/
def shiftDistance (b : Word) : Nat := (b.extractLsb' 0 6).toNat

/-- The ALU's result on operand 1 `a` and operand 2 `b` (R125 to R129), modulo 2^64 (R131). -/
def aluResult (op : AluOp) (a b : Word) : Word :=
  match op with
  | .add => a + b
  | .sub => a - b
  | .and => a &&& b
  | .or => a ||| b
  | .sll => a <<< shiftDistance b

/-- The ALU: `(operand, operand, operation) → (result, zero-flag)` (R124, R130). -/
def alu (op : AluOp) (a b : Word) : Word × Bool :=
  (aluResult op a b, zeroFlag (aluResult op a b))

end Sys2Proof.Machine
end

