-- ==== Sys2Proof/Machine/Ops.lean ====
section
/-! DEFINITION. The named operations over registers, data memory and the instruction store, the raising of a fault
(60_exceptions.md R217) and the completion of a tick (41_tick.md R156 to R158). -/

namespace Sys2Proof.Machine

/-! Registers: every index, 0 included, reads what was last written (R22, R132). -/

/-- `x[r]`. -/
def State.reg (s : State) (r : RegIdx) : Word := s.x[r.toNat]'r.isLt

/-- `x[r] <- v`. -/
def State.setReg (s : State) (r : RegIdx) (v : Word) : State :=
  { s with x := s.x.set r.toNat v r.isLt }

/-! Data memory, one byte at a time. -/

/-- `DMEM[a]`. -/
def Memory.readByte : Memory → Nat → Byte
  | [], _ => Config.unlistedByte
  | (k, b) :: m, a => if k = a then b else readByte m a

/-- The listed pairs without the address `a`. -/
def Memory.without (m : Memory) (a : Nat) : Memory := m.filter fun c => decide (c.1 ≠ a)

/-- The pair put before the first larger address. -/
def Memory.insertCell : Memory → Nat → Byte → Memory
  | [], a, b => [(a, b)]
  | (k, c) :: m, a, b => if a < k then (a, b) :: (k, c) :: m else (k, c) :: insertCell m a b

/-- `DMEM[a] <- b`, keeping the canonical form: a byte that an unlisted address reads as is not listed. -/
def Memory.writeByte (m : Memory) (a : Nat) (b : Byte) : Memory :=
  if b = Config.unlistedByte then m.without a else (m.without a).insertCell a b

/-- Consecutive bytes from `a` upwards. -/
def Memory.writeBytes : Memory → Nat → List Byte → Memory
  | m, _, [] => m
  | m, a, b :: bs => writeBytes (m.writeByte a b) (a + 1) bs

/-- The canonical form: addresses strictly rising and inside `DMEM[0..1023]`, no entry that equals what an unlisted
address reads as. -/
abbrev Memory.wf (m : Memory) : Prop :=
  (m.map Prod.fst).Pairwise (· < ·) ∧ ∀ c ∈ m, c.1 < Config.dmemSize ∧ c.2 ≠ Config.unlistedByte

/-! The 8-byte access, little-endian (R54): byte order is decided here and nowhere else. -/

/-- Bits `8*i+7 : 8*i` of `v`. -/
def byteOf (v : Word) (i : Nat) : Byte := v.extractLsb' (8 * i) 8

/-- The 8 bytes of `v`, the least significant first. -/
def bytesOf (v : Word) : List Byte :=
  [byteOf v 0, byteOf v 1, byteOf v 2, byteOf v 3, byteOf v 4, byteOf v 5, byteOf v 6, byteOf v 7]

/-- `DMEM[a+7] ++ ... ++ DMEM[a]` (R56). -/
def Memory.load8 (m : Memory) (a : Nat) : Word :=
  m.readByte (a + 7) ++ m.readByte (a + 6) ++ m.readByte (a + 5) ++ m.readByte (a + 4) ++
    m.readByte (a + 3) ++ m.readByte (a + 2) ++ m.readByte (a + 1) ++ m.readByte a

/-- `DMEM[a+i] <- v[8*i+7 : 8*i]` for `i = 0..7` (R55). -/
def Memory.store8 (m : Memory) (a : Nat) (v : Word) : Memory := m.writeBytes a (bytesOf v)

/-- The range check: in range exactly when the unsigned address is at most 1016 (R57); no wrap, no alignment
(R53, R58). -/
def inRange (addr : Word) : Bool := decide (addr.toNat ≤ Config.dmemSize - Config.accessBytes)

/-- `MemRead(addr, 8)` (R56): none where the range check fails. -/
def memRead (m : Memory) (addr : Word) : Option Word :=
  if inRange addr then some (m.load8 addr.toNat) else none

/-- `MemWrite(addr, 8, v)` (R55): none where the range check fails, and then nothing is written. -/
def memWrite (m : Memory) (addr v : Word) : Option Memory :=
  if inRange addr then some (m.store8 addr.toNat v) else none

/-- `DMEM` replaced as a whole, by the memory that a store leaves. -/
def State.setMem (s : State) (m : Memory) : State := { s with mem := m }

/-- The memory that holds the given bytes from address `a` upwards: `DMEM_INIT` as data (R7). -/
def Memory.ofBytes (a : Nat) (bs : List Byte) : Memory := Memory.writeBytes [] a bs

/-! The instruction store: whole words keyed by address, no byte order (R51, R68). -/

/-- The word at an address, if there is an entry (R52). -/
def InstrStore.wordAt : InstrStore → Nat → Option InstrWord
  | [], _ => none
  | (k, w) :: m, a => if k = a then some w else wordAt m a

/-- The entry put before the first larger address. -/
def InstrStore.insertEntry : InstrStore → Nat → InstrWord → InstrStore
  | [], a, w => [(a, w)]
  | (k, v) :: m, a, w => if a < k then (a, w) :: (k, v) :: m else (k, v) :: insertEntry m a w

/-- The store with `w` as the one entry at address `a`. -/
def InstrStore.put (m : InstrStore) (a : Nat) (w : InstrWord) : InstrStore :=
  InstrStore.insertEntry (m.filter fun e => decide (e.1 ≠ a)) a w

/-- The canonical form of an instruction store inside the contract of R242: 64-bit addresses strictly rising (so
distinct), at most 256 entries. -/
abbrev InstrStore.wf (m : InstrStore) : Prop :=
  (m.map Prod.fst).Pairwise (· < ·) ∧ (∀ e ∈ m, e.1 < 2 ^ 64) ∧ m.length ≤ Config.imemCap

/-- `InstrFetch(pc)` (R52, R111): none where no entry has that address. -/
def State.fetch (s : State) : Option InstrWord := s.imem.wordAt s.pc.toNat

/-- The state with `w` loaded as the instruction at `pc` and the machine running; `lastAddr` stays the largest
address (R242(d)). This stands for the host's load of a program (log entry 2). -/
def State.loadAtPc (s : State) (w : InstrWord) : State :=
  { s with
    imem := s.imem.put s.pc.toNat w
    lastAddr := if s.lastAddr < s.pc then s.pc else s.lastAddr
    status := .running }

/-! The two ways a tick ends. -/

/-- The state after a fault: `x`, `pc`, `clock` and `DMEM` keep their values, `status <- Faulted(F, info)`
(R217). -/
def State.fail (s : State) (f : Fault) : State := { s with status := .faulted f }

/-- `raise F(info)` (R11, R217): the tick is abandoned. Taking a fault is the one exception entry of this hardware;
there is no return from it (R220, R221). -/
def raiseFault (f : Fault) (s : State) : Host.Outcome State Fault Refusal := .next (s.fail f)

/-- Steps 6 to 8: the new `pc`, `clock + 1`, and the terminal check on the new `pc`, unsigned and strict
(R156, R157, R158). -/
def State.advance (s : State) (newPc : Word) : State :=
  { s with
    pc := newPc
    clock := s.clock + 1#64
    status := if s.lastAddr < newPc then .halted else s.status }

/-- A completed tick. -/
def completeTick (newPc : Word) (s : State) : Host.Outcome State Fault Refusal := .next (s.advance newPc)

/-- Once the run has ended no tick executes and nothing changes (R250; log entry 7). -/
def frozen (s : State) : Host.Outcome State Fault Refusal := .next s

end Sys2Proof.Machine
end

