-- ==== Sys2Proof/Machine/Operands.lean ====
section
/-! DEFINITION. The operand forms: the sign-extended immediates (30_encoding.md R87 to R89), the effective address
(20_memory.md R53), the next pc (40_blocks.md R133) and the write-back of an ALU result (41_tick.md R155). -/

namespace Sys2Proof.Machine

/-- `sext_12` (R11, R87, R88). -/
def sext12 (imm : BitVec 12) : Word := imm.signExtend 64

/-- `sext_13` (R11, R89). -/
def sext13 (offset : BitVec 13) : Word := offset.signExtend 64

/-- The immediate operand of an opcode-19 word with imm[11:5] = `high` and imm[4:0] = `low` (R180). -/
def immOperand (high : BitVec 7) (low : BitVec 5) : Word := sext12 (high ++ low)

/-- The address of a load or a store: base register plus sign-extended offset, modulo 2^64, computed by the ALU's
`ADD` (R53, R190, R191). -/
def effectiveAddress (s : State) (rs1 : RegIdx) (imm : BitVec 12) : Word :=
  aluResult .add (s.reg rs1) (sext12 imm)

/-- The `pc` of the next instruction in line (R26). -/
def nextInLine (s : State) : Word := s.pc + Config.instrBytes

/-- The branch multiplexer (R133): `pc + imm` with no further shift (R156, D7) if the branch is taken. -/
def nextPc (s : State) (branch zero : Bool) (imm : Word) : Word :=
  if branch && zero then s.pc + imm else nextInLine s

/-- A register result: `x[rd] <- v`, then the tick completes with the next instruction in line. -/
def writeBack (rd : RegIdx) (v : Word) (s : State) : Host.Outcome State Fault Refusal :=
  completeTick (nextInLine s) (s.setReg rd v)

/-- The tick of an ALU instruction on operands already read (R170, R180). -/
def aluTick (op : AluOp) (rd : RegIdx) (a b : Word) (s : State) : Host.Outcome State Fault Refusal :=
  writeBack rd (aluResult op a b) s

end Sys2Proof.Machine
end

