-- ==== Sys2Proof/Machine/Branch.lean ====
section
/-! DEFINITION. Control transfer, opcode 99 (45_branch.md). funct3 does not select a condition (R203). -/

namespace Sys2Proof.Machine

/-- `beq rs1,rs2,offset` (R200): the ALU subtracts (R121) and its zero flag decides the next `pc`. -/
def execBeq (_funct3 : BitVec 3) (rs1 rs2 : RegIdx) (offset : BitVec 13) (s : State) :
    Host.Outcome State Fault Refusal :=
  completeTick (nextPc s true (alu .sub (s.reg rs1) (s.reg rs2)).2 (sext13 offset)) s

end Sys2Proof.Machine
end

