-- ==== Sys2Proof/Machine/IType.lean ====
section
/-! DEFINITION. Register-immediate arithmetic, opcode 19 (43_itype.md). Operand 2 is the whole sign-extended
immediate; its upper seven bits have selected the operation (R180). -/

namespace Sys2Proof.Machine

/-- `addi rd,rs1,imm`, an immediate 0 to 31 (R181). -/
def execAddi (rd rs1 : RegIdx) (imm : BitVec 5) (s : State) : Host.Outcome State Fault Refusal :=
  aluTick .add rd (s.reg rs1) (immOperand 0#7 imm) s

/-- The `addi` word with an immediate 1024 to 1055: subtracts (R183). -/
def execAddiF7x20 (rd rs1 : RegIdx) (imm : BitVec 5) (s : State) : Host.Outcome State Fault Refusal :=
  aluTick .sub rd (s.reg rs1) (immOperand 32#7 imm) s

/-- `andi rd,rs1,imm`, an immediate 0 to 31 (R184). -/
def execAndi (rd rs1 : RegIdx) (imm : BitVec 5) (s : State) : Host.Outcome State Fault Refusal :=
  aluTick .and rd (s.reg rs1) (immOperand 0#7 imm) s

/-- `ori rd,rs1,imm`, an immediate 0 to 31 (R185). -/
def execOri (rd rs1 : RegIdx) (imm : BitVec 5) (s : State) : Host.Outcome State Fault Refusal :=
  aluTick .or rd (s.reg rs1) (immOperand 0#7 imm) s

/-- `slli rd,rs1,shamt` (R182): the ALU uses only the low 6 bits of the sign-extended immediate. -/
def execSlli (rd rs1 : RegIdx) (imm : BitVec 12) (s : State) : Host.Outcome State Fault Refusal :=
  aluTick .sll rd (s.reg rs1) (sext12 imm) s

end Sys2Proof.Machine
end

