-- ==== Sys2Proof/Machine/LoadStore.lean ====
section
/-! DEFINITION. Load and store, opcodes 3 and 35 (44_load_store.md). funct3 does not select a width (R192). -/

namespace Sys2Proof.Machine

/-- `ld rd,offset(rs1)` (R190): 8 bytes into `x[rd]`, or `AddressOutOfRange`. -/
def execLd (_funct3 : BitVec 3) (rd rs1 : RegIdx) (imm : BitVec 12) (s : State) :
    Host.Outcome State Fault Refusal :=
  match memRead s.mem (effectiveAddress s rs1 imm) with
  | some v => writeBack rd v s
  | none => raiseFault (.addressOutOfRange (effectiveAddress s rs1 imm)) s

/-- `sd rs2,offset(rs1)` (R191): the 8 bytes of `x[rs2]` into memory, or `AddressOutOfRange`. -/
def execSd (_funct3 : BitVec 3) (rs2 rs1 : RegIdx) (imm : BitVec 12) (s : State) :
    Host.Outcome State Fault Refusal :=
  match memWrite s.mem (effectiveAddress s rs1 imm) (s.reg rs2) with
  | some m => completeTick (nextInLine s) (s.setMem m)
  | none => raiseFault (.addressOutOfRange (effectiveAddress s rs1 imm)) s

end Sys2Proof.Machine
end

