-- ==== Sys2Proof/Machine/RType.lean ====
section
/-! DEFINITION. Register-register arithmetic, opcode 51 (42_rtype.md). -/

namespace Sys2Proof.Machine

/-- `add rd,rs1,rs2` (R171). -/
def execAdd (rd rs1 rs2 : RegIdx) (s : State) : Host.Outcome State Fault Refusal :=
  aluTick .add rd (s.reg rs1) (s.reg rs2) s

/-- `sub rd,rs1,rs2` (R172). -/
def execSub (rd rs1 rs2 : RegIdx) (s : State) : Host.Outcome State Fault Refusal :=
  aluTick .sub rd (s.reg rs1) (s.reg rs2) s

/-- `and rd,rs1,rs2` (R173). -/
def execAnd (rd rs1 rs2 : RegIdx) (s : State) : Host.Outcome State Fault Refusal :=
  aluTick .and rd (s.reg rs1) (s.reg rs2) s

/-- `or rd,rs1,rs2`, a true bitwise OR (R174, D5). -/
def execOr (rd rs1 rs2 : RegIdx) (s : State) : Host.Outcome State Fault Refusal :=
  aluTick .or rd (s.reg rs1) (s.reg rs2) s

/-- `sll rd,rs1,rs2` (R175): every funct7 value gives the same behaviour. -/
def execSll (_funct7 : BitVec 7) (rd rs1 rs2 : RegIdx) (s : State) : Host.Outcome State Fault Refusal :=
  aluTick .sll rd (s.reg rs1) (s.reg rs2) s

end Sys2Proof.Machine
end

