-- ==== Sys2Proof/Syntax.lean ====
section
/-! DEFINITION. The instructions: one constructor per row of spec/opcode_table.json. -/

namespace Sys2Proof

/-- An instruction with its operand fields. Fields the hardware ignores (R93) are kept, so that no bit of an
encoding is dropped (log entry 10). -/
inductive Instr where
  /-- `add rd,rs1,rs2` (R171). -/
  | add (rd rs1 rs2 : RegIdx)
  /-- `sub rd,rs1,rs2` (R172). -/
  | sub (rd rs1 rs2 : RegIdx)
  /-- `and rd,rs1,rs2` (R173). -/
  | and (rd rs1 rs2 : RegIdx)
  /-- `or rd,rs1,rs2` (R174). -/
  | or (rd rs1 rs2 : RegIdx)
  /-- `sll rd,rs1,rs2` (R175), with the funct7 bits the hardware ignores. -/
  | sll (funct7 : BitVec 7) (rd rs1 rs2 : RegIdx)
  /-- `addi rd,rs1,imm` for an immediate 0 to 31 (R181): `imm` is imm[4:0], imm[11:5] is 0. -/
  | addi (rd rs1 : RegIdx) (imm : BitVec 5)
  /-- The subtracting `addi` word, imm[11:5] = 32 (R183): `imm` is imm[4:0]. -/
  | addiF7x20 (rd rs1 : RegIdx) (imm : BitVec 5)
  /-- `andi rd,rs1,imm` for an immediate 0 to 31 (R184). -/
  | andi (rd rs1 : RegIdx) (imm : BitVec 5)
  /-- `ori rd,rs1,imm` for an immediate 0 to 31 (R185). -/
  | ori (rd rs1 : RegIdx) (imm : BitVec 5)
  /-- `slli rd,rs1,shamt` (R182): `imm` is the whole imm[11:0], the distance is its low 6 bits. -/
  | slli (rd rs1 : RegIdx) (imm : BitVec 12)
  /-- `ld rd,offset(rs1)` (R190), with the funct3 bits the hardware ignores (R192). -/
  | ld (funct3 : BitVec 3) (rd rs1 : RegIdx) (imm : BitVec 12)
  /-- `sd rs2,offset(rs1)` (R191), with the funct3 bits the hardware ignores (R192). -/
  | sd (funct3 : BitVec 3) (rs2 rs1 : RegIdx) (imm : BitVec 12)
  /-- `beq rs1,rs2,offset` (R200), with the funct3 bits the hardware ignores (R203): `offset` is the 13-bit
  byte offset, whose bit 0 is not encoded and is 0 (R85). -/
  | beq (funct3 : BitVec 3) (rs1 rs2 : RegIdx) (offset : BitVec 13)
  deriving DecidableEq, Repr

end Sys2Proof
end

