-- ==== Sys2Proof/Machine/Dispatch.lean ====
section
/-! DEFINITION. exec: one arm per instruction, each one direct call of its meaning. -/

namespace Sys2Proof.Machine

def exec (i : Instr) (s : State) : Host.Outcome State Fault Refusal :=
  match i with
  -- register-register arithmetic, opcode 51
  | .add rd rs1 rs2 => Sys2Proof.Machine.execAdd rd rs1 rs2 s
  | .sub rd rs1 rs2 => Sys2Proof.Machine.execSub rd rs1 rs2 s
  | .and rd rs1 rs2 => Sys2Proof.Machine.execAnd rd rs1 rs2 s
  | .or rd rs1 rs2 => Sys2Proof.Machine.execOr rd rs1 rs2 s
  | .sll funct7 rd rs1 rs2 => Sys2Proof.Machine.execSll funct7 rd rs1 rs2 s
  -- register-immediate arithmetic, opcode 19
  | .addi rd rs1 imm => Sys2Proof.Machine.execAddi rd rs1 imm s
  | .addiF7x20 rd rs1 imm => Sys2Proof.Machine.execAddiF7x20 rd rs1 imm s
  | .andi rd rs1 imm => Sys2Proof.Machine.execAndi rd rs1 imm s
  | .ori rd rs1 imm => Sys2Proof.Machine.execOri rd rs1 imm s
  | .slli rd rs1 imm => Sys2Proof.Machine.execSlli rd rs1 imm s
  -- load, store, branch
  | .ld funct3 rd rs1 imm => Sys2Proof.Machine.execLd funct3 rd rs1 imm s
  | .sd funct3 rs2 rs1 imm => Sys2Proof.Machine.execSd funct3 rs2 rs1 imm s
  | .beq funct3 rs1 rs2 offset => Sys2Proof.Machine.execBeq funct3 rs1 rs2 offset s

end Sys2Proof.Machine
end

