-- ==== Sys2Proof/WellFormed.lean ====
section
/-! DEFINITION. Which terms of Instr stand for an encodable instruction. -/

namespace Sys2Proof

/-- Every operand field has exactly the width of its encoding, so one check is left: a branch offset is even,
"imm[0] is not encoded; it is always 0" (R85). -/
def Instr.wellFormed : Instr → Bool
  | .add _ _ _ => true
  | .sub _ _ _ => true
  | .and _ _ _ => true
  | .or _ _ _ => true
  | .sll _ _ _ _ => true
  | .addi _ _ _ => true
  | .addiF7x20 _ _ _ => true
  | .andi _ _ _ => true
  | .ori _ _ _ => true
  | .slli _ _ _ => true
  | .ld _ _ _ _ => true
  | .sd _ _ _ _ => true
  | .beq _ _ _ offset => !offset.getLsbD 0

end Sys2Proof
end

