-- ==== Sys2Proof/Decode.lean ====
section
/-! DEFINITION. The decoder, total on every 32-bit word and rejecting by name (30_encoding.md R80 to R95), and
after it the encoder (R82 to R85, R99) and the opcode table. -/

namespace Sys2Proof

/-- Why a word stands for no instruction. -/
inductive DecodeError where
  /-- The opcode is not 3, 19, 35, 51 or 99 (R94). -/
  | unsupportedOpcode (word : InstrWord)
  /-- Opcode 51 or 19 with a (funct7, funct3) pair that is not in the table of R92 (R95). -/
  | unresolvedAluOperation (funct7 : BitVec 7) (funct3 : BitVec 3)
  deriving DecidableEq, Repr

/-! The six fields, cut from every word at fixed positions (R81). -/

/-- `opcode`, word bits 6:0. -/
def opcodeOf (w : InstrWord) : BitVec 7 := w.extractLsb' 0 7

/-- `rd`, word bits 11:7. -/
def rdOf (w : InstrWord) : RegIdx := w.extractLsb' 7 5

/-- `funct3`, word bits 14:12. -/
def funct3Of (w : InstrWord) : BitVec 3 := w.extractLsb' 12 3

/-- `rs1`, word bits 19:15. -/
def rs1Of (w : InstrWord) : RegIdx := w.extractLsb' 15 5

/-- `rs2`, word bits 24:20. -/
def rs2Of (w : InstrWord) : RegIdx := w.extractLsb' 20 5

/-- `funct7`, word bits 31:25. -/
def funct7Of (w : InstrWord) : BitVec 7 := w.extractLsb' 25 7

/-! The immediate fields of the formats, before sign extension. -/

/-- I-type, `word[31:20]` (R83, R87). -/
def immFieldI (w : InstrWord) : BitVec 12 := w.extractLsb' 20 12

/-- S-type, `word[31:25] ++ word[11:7]` (R84, R88). -/
def immFieldS (w : InstrWord) : BitVec 12 := w.extractLsb' 25 7 ++ w.extractLsb' 7 5

/-- SB-type, `word[31] ++ word[7] ++ word[30:25] ++ word[11:8] ++ 0b0` (R85, R89). -/
def immFieldSB (w : InstrWord) : BitVec 13 :=
  w.extractLsb' 31 1 ++ w.extractLsb' 7 1 ++ w.extractLsb' 25 6 ++ w.extractLsb' 8 4 ++ 0#1

/-- Opcode 51, by the opcode-51 column of the table of R92; every other pair is R176. -/
def decodeRType (w : InstrWord) : Except DecodeError Instr :=
  let f7 := funct7Of w
  let f3 := funct3Of w
  if f3 = 1#3 then .ok (.sll f7 (rdOf w) (rs1Of w) (rs2Of w))
  else if f3 = 0#3 ∧ f7 = 0#7 then .ok (.add (rdOf w) (rs1Of w) (rs2Of w))
  else if f3 = 0#3 ∧ f7 = 32#7 then .ok (.sub (rdOf w) (rs1Of w) (rs2Of w))
  else if f3 = 7#3 ∧ f7 = 0#7 then .ok (.and (rdOf w) (rs1Of w) (rs2Of w))
  else if f3 = 6#3 ∧ f7 = 0#7 then .ok (.or (rdOf w) (rs1Of w) (rs2Of w))
  else .error (.unresolvedAluOperation f7 f3)

/-- Opcode 19, by the opcode-19 column of the table of R92, where the funct7 bits are imm[11:5] and the rs2
bits imm[4:0]; every other pair is R186. -/
def decodeIType (w : InstrWord) : Except DecodeError Instr :=
  let f7 := funct7Of w
  let f3 := funct3Of w
  let imm5 : BitVec 5 := w.extractLsb' 20 5
  if f3 = 1#3 then .ok (.slli (rdOf w) (rs1Of w) (immFieldI w))
  else if f3 = 0#3 ∧ f7 = 0#7 then .ok (.addi (rdOf w) (rs1Of w) imm5)
  else if f3 = 0#3 ∧ f7 = 32#7 then .ok (.addiF7x20 (rdOf w) (rs1Of w) imm5)
  else if f3 = 7#3 ∧ f7 = 0#7 then .ok (.andi (rdOf w) (rs1Of w) imm5)
  else if f3 = 6#3 ∧ f7 = 0#7 then .ok (.ori (rdOf w) (rs1Of w) imm5)
  else .error (.unresolvedAluOperation f7 f3)

/-- The first level of the opcode map (R91); for opcodes 3, 35 and 99 funct3 and funct7 select nothing (R93);
every other opcode is R94. -/
def decode (w : InstrWord) : Except DecodeError Instr :=
  if opcodeOf w = 51#7 then decodeRType w
  else if opcodeOf w = 19#7 then decodeIType w
  else if opcodeOf w = 3#7 then .ok (.ld (funct3Of w) (rdOf w) (rs1Of w) (immFieldI w))
  else if opcodeOf w = 35#7 then .ok (.sd (funct3Of w) (rs2Of w) (rs1Of w) (immFieldS w))
  else if opcodeOf w = 99#7 then .ok (.beq (funct3Of w) (rs1Of w) (rs2Of w) (immFieldSB w))
  else .error (.unsupportedOpcode w)

/-- The decoder on a word numbered as spec/opcode_table.json numbers it: instructions are whole 32-bit words
with bit 0 the least significant (R68, R80), so the number is the word. -/
def decodeTableWord (nbits w : Nat) : Option Instr :=
  (decode (BitVec.ofNat 32 (w % 2 ^ nbits))).toOption

/-! The encoder: the formats of R82 to R85, with the canonical selector fields of R99 where a row fixes them. -/

/-- R-type (R82). -/
def wordR (funct7 : BitVec 7) (rs2 rs1 : RegIdx) (funct3 : BitVec 3) (rd : RegIdx) : InstrWord :=
  funct7 ++ rs2 ++ rs1 ++ funct3 ++ rd ++ 51#7

/-- I-type (R83), opcode 3 or 19. -/
def wordI (imm : BitVec 12) (rs1 : RegIdx) (funct3 : BitVec 3) (rd : RegIdx) (opcode : BitVec 7) : InstrWord :=
  imm ++ rs1 ++ funct3 ++ rd ++ opcode

/-- S-type (R84). -/
def wordS (imm : BitVec 12) (rs2 rs1 : RegIdx) (funct3 : BitVec 3) : InstrWord :=
  imm.extractLsb' 5 7 ++ rs2 ++ rs1 ++ funct3 ++ imm.extractLsb' 0 5 ++ 35#7

/-- SB-type (R85). -/
def wordSB (offset : BitVec 13) (rs2 rs1 : RegIdx) (funct3 : BitVec 3) : InstrWord :=
  offset.extractLsb' 12 1 ++ offset.extractLsb' 5 6 ++ rs2 ++ rs1 ++ funct3 ++ offset.extractLsb' 1 4 ++
    offset.extractLsb' 11 1 ++ 99#7

/-- The word of a well-formed instruction. -/
def encode : Instr → InstrWord
  | .add rd rs1 rs2 => wordR 0#7 rs2 rs1 0#3 rd
  | .sub rd rs1 rs2 => wordR 32#7 rs2 rs1 0#3 rd
  | .and rd rs1 rs2 => wordR 0#7 rs2 rs1 7#3 rd
  | .or rd rs1 rs2 => wordR 0#7 rs2 rs1 6#3 rd
  | .sll funct7 rd rs1 rs2 => wordR funct7 rs2 rs1 1#3 rd
  | .addi rd rs1 imm => wordI (0#7 ++ imm) rs1 0#3 rd 19#7
  | .addiF7x20 rd rs1 imm => wordI (32#7 ++ imm) rs1 0#3 rd 19#7
  | .andi rd rs1 imm => wordI (0#7 ++ imm) rs1 7#3 rd 19#7
  | .ori rd rs1 imm => wordI (0#7 ++ imm) rs1 6#3 rd 19#7
  | .slli rd rs1 imm => wordI imm rs1 1#3 rd 19#7
  | .ld funct3 rd rs1 imm => wordI imm rs1 funct3 rd 3#7
  | .sd funct3 rs2 rs1 imm => wordS imm rs2 rs1 funct3
  | .beq funct3 rs1 rs2 offset => wordSB offset rs2 rs1 funct3

/-! The opcode table as the spec lists it, kept apart from the decoder's field tests. -/

/-- The mnemonic of an instruction's row in spec/opcode_table.json. -/
def Instr.mnemonic : Instr → String
  | .add _ _ _ => "add"
  | .sub _ _ _ => "sub"
  | .and _ _ _ => "and"
  | .or _ _ _ => "or"
  | .sll _ _ _ _ => "sll"
  | .addi _ _ _ => "addi"
  | .addiF7x20 _ _ _ => "addi.f7_0x20"
  | .andi _ _ _ => "andi"
  | .ori _ _ _ => "ori"
  | .slli _ _ _ => "slli"
  | .ld _ _ _ _ => "ld"
  | .sd _ _ _ _ => "sd"
  | .beq _ _ _ _ => "beq"

/-- A row of spec/opcode_table.json: a word belongs to it when its bits under `mask` are `pattern`. -/
structure OpcodeRow where
  mnemonic : String
  pattern : InstrWord
  mask : InstrWord
  deriving DecidableEq, Repr

/-- The thirteen rows, `match` and `mask` as spec/opcode_table.json gives them. -/
def opcodeTable : List OpcodeRow :=
  [⟨"add", 0x00000033#32, 0xFE00707F#32⟩, ⟨"sub", 0x40000033#32, 0xFE00707F#32⟩,
   ⟨"and", 0x00007033#32, 0xFE00707F#32⟩, ⟨"or", 0x00006033#32, 0xFE00707F#32⟩,
   ⟨"sll", 0x00001033#32, 0x0000707F#32⟩] ++
  [⟨"addi", 0x00000013#32, 0xFE00707F#32⟩, ⟨"addi.f7_0x20", 0x40000013#32, 0xFE00707F#32⟩,
   ⟨"andi", 0x00007013#32, 0xFE00707F#32⟩, ⟨"ori", 0x00006013#32, 0xFE00707F#32⟩,
   ⟨"slli", 0x00001013#32, 0x0000707F#32⟩] ++
  [⟨"ld", 0x00000003#32, 0x0000007F#32⟩, ⟨"sd", 0x00000023#32, 0x0000007F#32⟩,
   ⟨"beq", 0x00000063#32, 0x0000007F#32⟩]

end Sys2Proof
end

