-- ==== Sys2Proof/Machine/Fetch.lean ====
section
/-! DEFINITION. Steps 1 and 2 of a tick, fetch and decode, with the fault each raises (41_tick.md R151, R152). -/

namespace Sys2Proof.Machine

/-- The fault of a word that stands for no instruction: opcodes 51 and 19 have `ALUOp = 2` (R114), so that is what an
unresolved operation reports (R176, R186). -/
def decodeFault : DecodeError → Fault
  | .unsupportedOpcode w => .unsupportedOpcode w
  | .unresolvedAluOperation f7 f3 => .unresolvedAluOperation 2#2 f7 f3

/-- The instruction at `pc`, or the fault of the first check that fails, in step order (R218). -/
def fetchDecode (s : State) : Except Fault Instr :=
  match s.fetch with
  | none => .error (.instructionFetchFault s.pc)
  | some w =>
    match decode w with
    | .ok i => .ok i
    | .error e => .error (decodeFault e)

/-- The state that `withFetchWord` answers: the word of the table's numbering loaded at `pc`. -/
def loadTableWord (s : State) (nbits w : Nat) : State := s.loadAtPc (BitVec.ofNat 32 (w % 2 ^ nbits))

end Sys2Proof.Machine
end

