-- ==== Sys2Proof/Machine/Step.lean ====
section
/-! DEFINITION. One step: one tick while the status is Running, nothing afterwards (41_tick.md R150, R160). -/

namespace Sys2Proof.Machine

/-- One tick (R160). A tick executes only when `status = Running` (R150); the ended machine is frozen (R250). -/
def step (s : State) : Host.Outcome State Fault Refusal :=
  match s.status with
  | .running =>
    match fetchDecode s with
    | .ok i => exec i s
    | .error f => raiseFault f s
  | .halted => frozen s
  | .faulted _ => frozen s

/-- The state whose next step fetches and runs the word `w` of the opcode table's numbering (log entry 2). -/
def State.withFetchWord (s : State) (nbits w : Nat) : State := loadTableWord s nbits w

end Sys2Proof.Machine
end

