-- ==== Sys2Proof/Machine/Datapath.lean ====
section
/-! DEFINITION. The blocks of the core as the spec gives them (40_blocks.md R110 to R136) and the tick as the blocks
perform it (41_tick.md R160). This is the hardware's own composition, written beside the per-instruction meanings;
that the two are one machine is a statement for the provers. -/

namespace Sys2Proof.Machine

/-- The Control Signal Vector with the validity output `supported` (R113). -/
structure ControlVector where
  aluSrc : Bool
  memtoReg : Bool
  regWrite : Bool
  memRead : Bool
  memWrite : Bool
  branch : Bool
  aluOp : BitVec 2
  supported : Bool
  deriving DecidableEq, Repr

/-- The Control Unit table (R114), its two don't-cares resolved to 0 (R115), all-zero elsewhere (R116). -/
def controlUnit (opcode : BitVec 7) : ControlVector :=
  if opcode = 51#7 then ⟨false, false, true, false, false, false, 2#2, true⟩
  else if opcode = 3#7 then ⟨true, true, true, true, false, false, 0#2, true⟩
  else if opcode = 19#7 then ⟨true, false, true, false, false, false, 2#2, true⟩
  else if opcode = 35#7 then ⟨true, false, false, false, true, false, 0#2, true⟩
  else if opcode = 99#7 then ⟨false, false, false, false, false, true, 1#2, true⟩
  else ⟨false, false, false, false, false, false, 0#2, false⟩

/-- The Immediate Generator (R118): I, S and SB immediates by opcode, 0 for any other (R87 to R90). -/
def immGen (w : InstrWord) : Word :=
  if opcodeOf w = 3#7 then sext12 (immFieldI w)
  else if opcodeOf w = 19#7 then sext12 (immFieldI w)
  else if opcodeOf w = 35#7 then sext12 (immFieldS w)
  else if opcodeOf w = 99#7 then sext13 (immFieldSB w)
  else 0#64

/-- The ALU Control Unit (R119), the complete decision function of R123; none is unresolved (R122). -/
def aluControl (aluOp : BitVec 2) (funct7 : BitVec 7) (funct3 : BitVec 3) : Option AluOp :=
  if aluOp = 0#2 then some .add
  else if aluOp = 1#2 then some .sub
  else if aluOp = 2#2 then
    if funct3 = 1#3 then some .sll
    else if funct3 = 0#3 ∧ funct7 = 0#7 then some .add
    else if funct3 = 0#3 ∧ funct7 = 32#7 then some .sub
    else if funct3 = 7#3 ∧ funct7 = 0#7 then some .and
    else if funct3 = 6#3 ∧ funct7 = 0#7 then some .or
    else none
  else none

/-- The operand-2 multiplexer (R134). -/
def operand2Mux (aluSrc : Bool) (imm r2 : Word) : Word := if aluSrc then imm else r2

/-- The store port of data memory (R136): no access and no range check with `memWrite` 0. -/
def storePort (enable : Bool) (addr wdata : Word) (m : Memory) : Option Memory :=
  if enable then memWrite m addr wdata else some m

/-- The load port of data memory (R136), enabled by `MemtoReg` (R117); its output is unused when not enabled. -/
def loadPort (enable : Bool) (addr : Word) (m : Memory) : Option Word :=
  if enable then memRead m addr else some 0#64

/-- The write-back multiplexer and the register file's write port (R132, R135). -/
def writePort (ctl : ControlVector) (rd : RegIdx) (result rdata : Word) (s : State) : State :=
  if ctl.regWrite then s.setReg rd (if ctl.memtoReg then rdata else result) else s

/-- Steps 2 to 8 of a tick on the fetched word, as the blocks perform them (R152 to R158, R160). -/
def datapathTick (w : InstrWord) (s : State) : Host.Outcome State Fault Refusal :=
  let ctl := controlUnit (opcodeOf w)
  let imm := immGen w
  let a := s.reg (rs1Of w)
  let r2 := s.reg (rs2Of w)
  if ctl.supported then
    match aluControl ctl.aluOp (funct7Of w) (funct3Of w) with
    | none => raiseFault (.unresolvedAluOperation ctl.aluOp (funct7Of w) (funct3Of w)) s
    | some op =>
      let out := alu op a (operand2Mux ctl.aluSrc imm r2)
      match storePort ctl.memWrite out.1 r2 s.mem with
      | none => raiseFault (.addressOutOfRange out.1) s
      | some m =>
        match loadPort ctl.memtoReg out.1 m with
        | none => raiseFault (.addressOutOfRange out.1) s
        | some rdata =>
          completeTick (nextPc s ctl.branch out.2 imm)
            (writePort ctl (rdOf w) out.1 rdata (s.setMem m))
  else raiseFault (.unsupportedOpcode w) s

/-- The whole tick at block level (R150, R151, R160). -/
def datapathStep (s : State) : Host.Outcome State Fault Refusal :=
  match s.status with
  | .running =>
    match s.fetch with
    | none => raiseFault (.instructionFetchFault s.pc) s
    | some w => datapathTick w s
  | .halted => frozen s
  | .faulted _ => frozen s

end Sys2Proof.Machine
end

