-- ==== Sys2Proof/Machine/Launch.lean ====
section
/-! DEFINITION. Reset as an event and the boot contract (70_reset_and_hazards.md R240, R242). -/

namespace Sys2Proof.Machine

/-- `DMEM_INIT` (R7): 1024 bytes, any. -/
abbrev DmemInit := Vector Byte Config.dmemSize

/-- The reset event (R240, R37): every piece of state at its reset value, `DMEM = DMEM_INIT`; the instruction store
and `LAST_ADDR` are not affected. -/
def applyReset (dmemInit : DmemInit) (s : State) : State :=
  { State.reset with
    mem := Memory.ofBytes 0 dmemInit.toList
    imem := s.imem
    lastAddr := s.lastAddr }

/-- The store that holds a sequence of (address, word) pairs with distinct addresses (R51). -/
def InstrStore.ofEntries : List (Word × InstrWord) → InstrStore
  | [] => []
  | (a, w) :: es => InstrStore.put (ofEntries es) a.toNat w

/-- No two entries carry one address (R242(b)). -/
def distinctAddresses : List (Word × InstrWord) → Bool
  | [] => true
  | (a, _) :: es => (es.all fun e => e.1 != a) && distinctAddresses es

/-- `lastAddr` is an address of the store and no address is larger (R242(d)). -/
def isLargestAddress (lastAddr : Word) (entries : List (Word × InstrWord)) : Bool :=
  (entries.any fun e => e.1 == lastAddr) && entries.all fun e => decide (e.1 ≤ lastAddr)

/-- The launch: what the host supplies before the first tick (R242, R244). A configuration that breaks (a), (b) or (d)
of R242 is refused by name; one that breaks (c) is accepted and its first tick faults. -/
def launch (entries : List (Word × InstrWord)) (lastAddr : Word) (dmemInit : DmemInit) :
    Host.Outcome State Fault Refusal :=
  if entries.isEmpty then .refused .emptyInstructionStore
  else if Config.imemCap < entries.length then .refused .tooManyEntries
  else if !distinctAddresses entries then .refused .duplicateAddress
  else if !isLargestAddress lastAddr entries then .refused .lastAddrNotLargest
  else .next (applyReset dmemInit
    { State.reset with imem := InstrStore.ofEntries entries, lastAddr := lastAddr })

/-- The standard layout (R51): the words of a program at the addresses `a, a + 4, ...`. -/
def standardLayout (a : Word) : List InstrWord → List (Word × InstrWord)
  | [] => []
  | w :: ws => (a, w) :: standardLayout (a + Config.instrBytes) ws

end Sys2Proof.Machine
end

