-- ==== Sys2Proof/Machine/Observe.lean ====
section
/-! DEFINITION. What the host may read, and when (60_exceptions.md R227, 70_reset_and_hazards.md R244). Reading
changes no state, so each is a function of State. -/

namespace Sys2Proof.Machine

/-- Between ticks: the full register file and the clock count, readable at the end of a run as well. -/
def State.observeTick (s : State) : Vector Word Config.nRegs × Word := (s.x, s.clock)

/-- The bytes at `a, a + 1, ...`, `n` of them; none where the range leaves 0 to 1023, which the spec does not specify
(R244, N21; log entry 13). -/
def Memory.dump (m : Memory) : Nat → Nat → Option (List Byte)
  | _, 0 => some []
  | a, n + 1 =>
    if a < Config.dmemSize then (dump m (a + 1) n).map fun bs => m.readByte a :: bs else none

/-- Whether the run has ended, in a halt or a fault: only then are `pc` and data memory readable. -/
def State.ended (s : State) : Bool :=
  match s.status with
  | .running => false
  | .halted => true
  | .faulted _ => true

/-- After the end of a run: `pc`. After a fault it is the `pc` of the state before the faulting tick (R217). -/
def State.observePc (s : State) : Option Word := if s.ended then some s.pc else none

/-- After the end of a run: data memory over a caller-specified range. After a fault it is the memory of the state
before the faulting tick (R217). -/
def State.observeMemory (s : State) (a n : Nat) : Option (List Byte) := if s.ended then s.mem.dump a n else none

/-- After a fault: the cause with its information. -/
def State.faultCause (s : State) : Option Fault :=
  match s.status with
  | .faulted f => some f
  | .running => none
  | .halted => none

/-- After a fault: the whole state before the faulting tick. That tick left `x`, `pc`, `clock` and `DMEM` as they were
(R217) and ran in the status Running (R150), so it is this state with that status. -/
def State.beforeFault (s : State) : Option State :=
  match s.status with
  | .faulted _ => some { s with status := .running }
  | .running => none
  | .halted => none

end Sys2Proof.Machine
end

