-- ==== Sys2Proof/Safety.lean ====
section
/-! DEFINITION. What counts as the end of a run and as a safe run (70_reset_and_hazards.md R243, 60_exceptions.md R210),
the invariant of the machine, and the terms in which the statements say what a tick does and leaves alone. -/

namespace Sys2Proof.Machine

/-! Runs. -/

/-- The normal end of a run (R243). -/
def State.Final (s : State) : Prop := s.status = .halted

/-- A failed run (R210): never a normal end. -/
def State.Failed (s : State) : Prop := ∃ f, s.status = .faulted f

/-- `k` ticks lead from `s` to `t`. -/
def RunsTo (k : Nat) (s t : State) : Prop := Host.Core.run Sys2Proof.core k s = .next t

/-- A run in which no fault is ever raised. -/
def SafeRun (s : State) : Prop := ∀ k t, RunsTo k s t → ¬ t.Failed

/-- A run that ends normally in `t`. -/
def HaltsIn (s t : State) : Prop := ∃ k, RunsTo k s t ∧ t.Final

/-! The invariant. -/

/-- What every step keeps: data memory and the instruction store stay in canonical form, LAST_ADDR bounds the store
(R242(d)), `pc` is even (R27: an SB immediate is only guaranteed even), a running machine has not passed
LAST_ADDR and a halted one has (R30, R158). -/
structure State.Inv (s : State) : Prop where
  mem_wf : s.mem.wf
  imem_wf : s.imem.wf
  imem_le_last : ∀ e ∈ s.imem, e.1 ≤ s.lastAddr.toNat
  pc_even : s.pc.toNat % 2 = 0
  running_le : s.status = .running → s.pc.toNat ≤ s.lastAddr.toNat
  halted_gt : s.status = .halted → s.lastAddr.toNat < s.pc.toNat

/-! The terms of the statements. -/

/-- The register an instruction writes (R24): `rd` for opcodes 51, 19 and 3, none for stores and branches. -/
def destination : Instr → Option RegIdx
  | .add rd _ _ => some rd
  | .sub rd _ _ => some rd
  | .and rd _ _ => some rd
  | .or rd _ _ => some rd
  | .sll _ rd _ _ => some rd
  | .addi rd _ _ => some rd
  | .addiF7x20 rd _ _ => some rd
  | .andi rd _ _ => some rd
  | .ori rd _ _ => some rd
  | .slli rd _ _ => some rd
  | .ld _ rd _ _ => some rd
  | .sd _ _ _ _ => none
  | .beq _ _ _ _ => none

/-- Whether an instruction is the one that writes data memory (R35). -/
def isStore : Instr → Bool
  | .sd _ _ _ _ => true
  | .add _ _ _ | .sub _ _ _ | .and _ _ _ | .or _ _ _ | .sll _ _ _ _ => false
  | .addi _ _ _ | .addiF7x20 _ _ _ | .andi _ _ _ | .ori _ _ _ | .slli _ _ _ => false
  | .ld _ _ _ _ | .beq _ _ _ _ => false

/-- Whether an instruction is the one that reads data memory (R35). -/
def isLoad : Instr → Bool
  | .ld _ _ _ _ => true
  | .add _ _ _ | .sub _ _ _ | .and _ _ _ | .or _ _ _ | .sll _ _ _ _ => false
  | .addi _ _ _ | .addiF7x20 _ _ _ | .andi _ _ _ | .ori _ _ _ | .slli _ _ _ => false
  | .sd _ _ _ _ | .beq _ _ _ _ => false

/-- Every register but `rd` reads as before. -/
def OtherRegistersSame (rd : RegIdx) (s t : State) : Prop := ∀ r, r ≠ rd → t.reg r = s.reg r

/-- Every register reads as before. -/
def RegistersSame (s t : State) : Prop := ∀ r, t.reg r = s.reg r

/-- Every byte of data memory reads as before. -/
def MemorySame (s t : State) : Prop := ∀ a, t.mem.readByte a = s.mem.readByte a

/-- The instruction store and its marker are as before (R36). -/
def ProgramSame (s t : State) : Prop := t.imem = s.imem ∧ t.lastAddr = s.lastAddr

/-- Steps 6 to 8 of a completed tick: the new `pc`, one more on the clock, and Halted exactly when the new `pc`, as an
unsigned number, exceeds LAST_ADDR (R156 to R158). -/
def TickEnds (newPc : Word) (s t : State) : Prop :=
  t.pc = newPc ∧ t.clock = s.clock + 1#64 ∧
    t.status = if s.lastAddr.toNat < newPc.toNat then .halted else s.status

/-- The frame of an instruction that writes `rd` and nothing else, and goes on to the next instruction in line. -/
def RegisterTick (rd : RegIdx) (s t : State) : Prop :=
  OtherRegistersSame rd s t ∧ MemorySame s t ∧ ProgramSame s t ∧ TickEnds (s.pc + 4#64) s t

/-- Opcodes the Control Unit supports (R91). -/
abbrev supportedOpcode (op : BitVec 7) : Prop := op = 3#7 ∨ op = 19#7 ∨ op = 35#7 ∨ op = 51#7 ∨ op = 99#7

/-- The (funct7, funct3) pairs of opcodes 51 and 19 that have an operation (R92, R176, R186). -/
abbrev resolvedPair (f7 : BitVec 7) (f3 : BitVec 3) : Prop :=
  (f7 = 0#7 ∧ f3 = 0#3) ∨ (f7 = 32#7 ∧ f3 = 0#3) ∨ (f7 = 0#7 ∧ f3 = 7#3) ∨ (f7 = 0#7 ∧ f3 = 6#3) ∨ f3 = 1#3

end Sys2Proof.Machine
end

