-- ==== Sys2Proof/Certificates/Slice0/Obligations.lean ====
section
/-! DEFINITION. The statements for the provers, in the order of OBLIGATIONS.json. A docstring names the spec's text a
statement formalises; D<n> are the spec's own decisions (92_eei_decisions.md), which a derived statement rests on. -/

open Sys2Proof Sys2Proof.Machine

/-! ### Encoding and decoding (30_encoding.md) -/

/-- Words of the spec's worked examples, one or more per family, decode to the instruction the example names
(95_test_vectors.md V3 to V6). -/
def Obligations.WorkedExampleWordsDecode : Prop :=
  decode 0x006283B3#32 = .ok (.add 7 5 6) ∧
  decode 0x402081B3#32 = .ok (.sub 3 1 2) ∧
  decode 0x402091B3#32 = .ok (.sll 32 3 1 2) ∧
  decode 0x00A00293#32 = .ok (.addi 5 0 10) ∧
  decode 0x41F30293#32 = .ok (.addiF7x20 5 6 31) ∧
  decode 0xFFF11113#32 = .ok (.slli 2 2 0xFFF) ∧
  decode 0xFF80B183#32 = .ok (.ld 3 3 1 0xFF8) ∧
  decode 0xFE20BC23#32 = .ok (.sd 3 2 1 0xFF8) ∧
  decode 0xFE000EE3#32 = .ok (.beq 0 0 0 0x1FFC)

/-- For every well-formed instruction, with every operand at every value its encoding admits, the decoder gives it back
from its word (R82 to R85, R92, R93). -/
def Obligations.DecodeOfEncodeIsTheInstruction : Prop :=
  ∀ i : Instr, i.wellFormed = true → decode (encode i) = .ok i

/-- Encoding what an accepted word decodes to gives the word back, and that instruction is well formed: decoding drops no
bit (R81 to R85). It rests on the model's choice of log entry 10 (DESIGN CHOICE): the bits the hardware ignores are kept as
operands. Words that differ only in those bits are different terms of Instr; what they do, the same by R93, R175, R182,
R192 and R203, is no part of this statement. -/
def Obligations.EncodeOfDecodeIsTheWord : Prop :=
  ∀ (w : InstrWord) (i : Instr), decode w = .ok i → encode i = w ∧ i.wellFormed = true

/-- A word decodes to an instruction of a row exactly when it matches the row's mask and pattern, and a word that matches
no row is rejected: "a word either matches a row of `opcode_table.json` and executes, or faults" (R96). -/
def Obligations.DecodeFollowsTheOpcodeTable : Prop :=
  (∀ (w : InstrWord) (row : OpcodeRow), row ∈ opcodeTable →
    (w &&& row.mask = row.pattern ↔ ∃ i, decode w = .ok i ∧ i.mnemonic = row.mnemonic)) ∧
  (∀ w : InstrWord, (∀ row ∈ opcodeTable, w &&& row.mask ≠ row.pattern) → ∃ e, decode w = .error e)

/-- R87: the I-type immediate is `sext_12(word[31:20])`, between -2048 and 2047, unscaled. -/
def Obligations.ITypeImmediateIsSignExtended : Prop :=
  (∀ w : InstrWord, opcodeOf w = 3#7 ∨ opcodeOf w = 19#7 →
    (immGen w).toInt = (w.toNat / 2 ^ 20 : Nat) - (if w.getLsbD 31 then 4096 else 0) ∧
    -2048 ≤ (immGen w).toInt ∧ (immGen w).toInt ≤ 2047) ∧
  immGen 0xFFF00093#32 = 0xFFFFFFFFFFFFFFFF#64

/-- R88: the S-type immediate is `sext_12(word[31:25] ++ word[11:7])`, between -2048 and 2047. -/
def Obligations.STypeImmediateIsSignExtended : Prop :=
  (∀ w : InstrWord, opcodeOf w = 35#7 →
    (immGen w).toInt =
      (32 * (w.toNat / 2 ^ 25) + w.toNat / 2 ^ 7 % 32 : Nat) - (if w.getLsbD 31 then 4096 else 0) ∧
    -2048 ≤ (immGen w).toInt ∧ (immGen w).toInt ≤ 2047) ∧
  immGen 0xFE20BC23#32 = 0xFFFFFFFFFFFFFFF8#64

/-- R89: the SB-type immediate is `sext_13(word[31] ++ word[7] ++ word[30:25] ++ word[11:8] ++ 0b0)`, even, between
-4096 and 4094. That a branch on equal operands is taken and adds it to `pc` as it stands is R200 with the spec's decisions
D3 (log entry 14) and D7 (log entry 18). -/
def Obligations.SBTypeImmediateIsAnEvenByteOffset : Prop :=
  (∀ w : InstrWord, opcodeOf w = 99#7 →
    (immGen w).toInt =
      (2048 * (w.toNat / 2 ^ 7 % 2) + 32 * (w.toNat / 2 ^ 25 % 64) + 2 * (w.toNat / 2 ^ 8 % 16) : Nat) -
        (if w.getLsbD 31 then 4096 else 0) ∧
    -4096 ≤ (immGen w).toInt ∧ (immGen w).toInt ≤ 4094 ∧ (immGen w).toInt % 2 = 0 ∧
    ∀ s : State, s.reg (rs1Of w) = s.reg (rs2Of w) →
      ∃ i t, decode w = .ok i ∧ exec i s = .next t ∧ t.pc = s.pc + immGen w) ∧
  immGen 0x00108463#32 = 8#64 ∧ immGen 0xFE000EE3#32 = 0xFFFFFFFFFFFFFFFC#64

/-- R90: any other opcode, 51 among them, has the immediate 0. -/
def Obligations.OtherOpcodesHaveImmediateZero : Prop :=
  ∀ w : InstrWord, opcodeOf w ≠ 3#7 → opcodeOf w ≠ 19#7 → opcodeOf w ≠ 35#7 → opcodeOf w ≠ 99#7 →
    immGen w = 0#64

/-! ### The words that fault (R94, R176, R186) -/

/-- R94: a word whose opcode is not 3, 19, 35, 51 or 99 is rejected, the control unit gives the all-zero vector, and the
tick raises `UnsupportedOpcode(word)` and changes nothing else. -/
def Obligations.UnsupportedOpcodeFaults : Prop :=
  (∀ w : InstrWord, ¬ supportedOpcode (opcodeOf w) →
    decode w = .error (.unsupportedOpcode w) ∧
    controlUnit (opcodeOf w) = ⟨false, false, false, false, false, false, 0#2, false⟩ ∧
    ∀ s : State, s.status = .running → s.fetch = some w →
      step s = .next { s with status := .faulted (.unsupportedOpcode w) }) ∧
  (∀ w : InstrWord, w.extractLsb' 0 2 ≠ 3#2 → ¬ supportedOpcode (opcodeOf w)) ∧
  (∀ op ∈ [0#7, 127#7, 55#7, 23#7, 111#7, 103#7, 15#7, 115#7, 27#7, 59#7, 47#7], ¬ supportedOpcode op) ∧
  opcodeOf 0x00000000#32 = 0#7 ∧ opcodeOf 0xFFFFFFFF#32 = 127#7 ∧
  ((List.range 128).filter fun k => decide (¬ supportedOpcode (BitVec.ofNat 7 k))).length = 123

/-- R176: an opcode-51 word whose (funct7, funct3) pair has no operation raises `UnresolvedALUOperation(2, funct7,
funct3)` and changes nothing else. -/
def Obligations.UnresolvedRTypeWordFaults : Prop :=
  (∀ (s : State) (w : InstrWord), s.status = .running → s.fetch = some w → opcodeOf w = 51#7 →
    ¬ resolvedPair (funct7Of w) (funct3Of w) →
    step s = .next { s with status := .faulted (.unresolvedAluOperation 2#2 (funct7Of w) (funct3Of w)) }) ∧
  (∀ (f7 : BitVec 7) (f3 : BitVec 3), ¬ resolvedPair f7 f3 ↔
    (f3 = 2#3 ∨ f3 = 3#3 ∨ f3 = 4#3 ∨ f3 = 5#3) ∨ (f3 = 0#3 ∧ f7 ≠ 0#7 ∧ f7 ≠ 32#7) ∨
      ((f3 = 6#3 ∨ f3 = 7#3) ∧ f7 ≠ 0#7)) ∧
  (∀ w ∈ [0x0020C1B3#32, 0x0020D1B3#32, 0x4020D1B3#32, 0x0020A1B3#32, 0x0020B1B3#32, 0x022081B3#32],
    opcodeOf w = 51#7 ∧ ¬ resolvedPair (funct7Of w) (funct3Of w))

/-- R186: an opcode-19 word whose (word[31:25], funct3) pair has no operation raises `UnresolvedALUOperation(2,
word[31:25], funct3)` and changes nothing else; with the rule's boundary examples. -/
def Obligations.UnresolvedITypeWordFaults : Prop :=
  (∀ (s : State) (w : InstrWord), s.status = .running → s.fetch = some w → opcodeOf w = 19#7 →
    ¬ resolvedPair (w.extractLsb' 25 7) (funct3Of w) →
    step s =
      .next { s with status := .faulted (.unresolvedAluOperation 2#2 (w.extractLsb' 25 7) (funct3Of w)) }) ∧
  (∀ (f7 : BitVec 7) (f3 : BitVec 3), ¬ resolvedPair f7 f3 ↔
    (f3 = 2#3 ∨ f3 = 3#3 ∨ f3 = 4#3 ∨ f3 = 5#3) ∨ (f3 = 0#3 ∧ f7 ≠ 0#7 ∧ f7 ≠ 32#7) ∨
      ((f3 = 6#3 ∨ f3 = 7#3) ∧ f7 ≠ 0#7)) ∧
  (∀ w ∈ [0x0010A193#32, 0x0010C193#32, 0x0010D193#32],
    opcodeOf w = 19#7 ∧ ¬ resolvedPair (w.extractLsb' 25 7) (funct3Of w)) ∧
  decode 0x01F28293#32 = .ok (.addi 5 5 31) ∧
  decode 0x02028293#32 = .error (.unresolvedAluOperation 1#7 0#3) ∧
  decode 0x41F30293#32 = .ok (.addiF7x20 5 6 31) ∧
  decode 0x42030293#32 = .error (.unresolvedAluOperation 33#7 0#3) ∧
  ∀ s : State, (∃ t, exec (.addi 5 5 31) s = .next t ∧ t.reg 5 = s.reg 5 + 31#64) ∧
    ∃ t, exec (.addiF7x20 5 6 31) s = .next t ∧ t.reg 5 = s.reg 6 - 1055#64

/-! ### Register-register arithmetic (42_rtype.md): encoding, completion, result and frame -/

/-- `add` (R170, R171): the sum modulo 2^64 (D8). -/
def Obligations.AddGivesTheSum : Prop :=
  ∀ rd rs1 rs2 : RegIdx,
    decode (0b0000000#7 ++ rs2 ++ rs1 ++ 0b000#3 ++ rd ++ 0b0110011#7) = .ok (.add rd rs1 rs2) ∧
    ∀ s : State, ∃ t, exec (.add rd rs1 rs2) s = .next t ∧
      (t.reg rd).toNat = ((s.reg rs1).toNat + (s.reg rs2).toNat) % 2 ^ 64 ∧ RegisterTick rd s t

/-- `sub` (R170, R172): the difference modulo 2^64 (D8). -/
def Obligations.SubGivesTheDifference : Prop :=
  ∀ rd rs1 rs2 : RegIdx,
    decode (0b0100000#7 ++ rs2 ++ rs1 ++ 0b000#3 ++ rd ++ 0b0110011#7) = .ok (.sub rd rs1 rs2) ∧
    ∀ s : State, ∃ t, exec (.sub rd rs1 rs2) s = .next t ∧
      (t.reg rd).toNat = (2 ^ 64 + (s.reg rs1).toNat - (s.reg rs2).toNat) % 2 ^ 64 ∧ RegisterTick rd s t

/-- R173: `and` gives the bitwise and; it raises no fault, and nothing else of the registers, memory or program changes. Where `pc` and `clock`
go is said by `CompletedTickEnds` and `NextPcFollowsTheBranchRule`. -/
def Obligations.AndGivesTheBitwiseAnd : Prop :=
  (∀ rd rs1 rs2 : RegIdx,
    decode (0b0000000#7 ++ rs2 ++ rs1 ++ 0b111#3 ++ rd ++ 0b0110011#7) = .ok (.and rd rs1 rs2) ∧
    ∀ s : State, ∃ t, exec (.and rd rs1 rs2) s = .next t ∧
      (∀ k, (t.reg rd).getLsbD k = ((s.reg rs1).getLsbD k && (s.reg rs2).getLsbD k)) ∧
      OtherRegistersSame rd s t ∧ MemorySame s t ∧ ProgramSame s t ∧ (rs1 = rs2 → t.reg rd = s.reg rs1) ∧
      (¬ s.Failed → ¬ t.Failed)) ∧
  aluControl 2#2 0#7 7#3 = some .and ∧
  decode 0x0020F1B3#32 = .ok (.and 3 1 2) ∧
  (∀ s : State, s.reg 1 = 6#64 → s.reg 2 = 3#64 → ∃ t, exec (.and 3 1 2) s = .next t ∧ t.reg 3 = 2#64)

/-- `or` (R170, R174): a true bitwise or (D5). -/
def Obligations.OrGivesTheBitwiseOr : Prop :=
  ∀ rd rs1 rs2 : RegIdx,
    decode (0b0000000#7 ++ rs2 ++ rs1 ++ 0b110#3 ++ rd ++ 0b0110011#7) = .ok (.or rd rs1 rs2) ∧
    ∀ s : State, ∃ t, exec (.or rd rs1 rs2) s = .next t ∧
      (∀ k, (t.reg rd).getLsbD k = ((s.reg rs1).getLsbD k || (s.reg rs2).getLsbD k)) ∧ RegisterTick rd s t

/-- `sll` (R170, R175): a left shift by the low 6 bits of `x[rs2]` (D4), whatever funct7 holds (D23). -/
def Obligations.SllShiftsByTheLowSixBits : Prop :=
  ∀ (f7 : BitVec 7) (rd rs1 rs2 : RegIdx),
    decode (f7 ++ rs2 ++ rs1 ++ 0b001#3 ++ rd ++ 0b0110011#7) = .ok (.sll f7 rd rs1 rs2) ∧
    ∀ s : State, ∃ t, exec (.sll f7 rd rs1 rs2) s = .next t ∧
      (t.reg rd).toNat = (s.reg rs1).toNat * 2 ^ ((s.reg rs2).toNat % 64) % 2 ^ 64 ∧ RegisterTick rd s t

/-! ### Register-immediate arithmetic (43_itype.md): encoding, completion, result and frame -/

/-- `addi` with an immediate 0 to 31 (R180, R181): the sum modulo 2^64 (D8). -/
def Obligations.AddiAddsAnImmediateBelow32 : Prop :=
  ∀ (rd rs1 : RegIdx) (imm : BitVec 5),
    decode (0b0000000#7 ++ imm ++ rs1 ++ 0b000#3 ++ rd ++ 0b0010011#7) = .ok (.addi rd rs1 imm) ∧
    ∀ s : State, ∃ t, exec (.addi rd rs1 imm) s = .next t ∧
      (t.reg rd).toNat = ((s.reg rs1).toNat + imm.toNat) % 2 ^ 64 ∧ RegisterTick rd s t

/-- The `addi` word with an immediate 1024 to 1055 subtracts it (R180, R183; a derived form, D23). -/
def Obligations.AddiWithBit10Subtracts : Prop :=
  ∀ (rd rs1 : RegIdx) (imm : BitVec 5),
    decode (0b0100000#7 ++ imm ++ rs1 ++ 0b000#3 ++ rd ++ 0b0010011#7) = .ok (.addiF7x20 rd rs1 imm) ∧
    ∀ s : State, ∃ t, exec (.addiF7x20 rd rs1 imm) s = .next t ∧
      (t.reg rd).toNat = (2 ^ 64 + (s.reg rs1).toNat - (1024 + imm.toNat)) % 2 ^ 64 ∧ RegisterTick rd s t

/-- `andi` with an immediate 0 to 31 (R180, R184; a derived form, D23): the result is at most 31. -/
def Obligations.AndiMasksWithAnImmediateBelow32 : Prop :=
  ∀ (rd rs1 : RegIdx) (imm : BitVec 5),
    decode (0b0000000#7 ++ imm ++ rs1 ++ 0b111#3 ++ rd ++ 0b0010011#7) = .ok (.andi rd rs1 imm) ∧
    ∀ s : State, ∃ t, exec (.andi rd rs1 imm) s = .next t ∧
      (∀ k, (t.reg rd).getLsbD k = ((s.reg rs1).getLsbD k && imm.getLsbD k)) ∧ (t.reg rd).toNat < 32 ∧
      RegisterTick rd s t

/-- `ori` with an immediate 0 to 31 (R180, R185; a derived form, D23): a true bitwise or (D5). -/
def Obligations.OriSetsTheImmediatesBits : Prop :=
  ∀ (rd rs1 : RegIdx) (imm : BitVec 5),
    decode (0b0000000#7 ++ imm ++ rs1 ++ 0b110#3 ++ rd ++ 0b0010011#7) = .ok (.ori rd rs1 imm) ∧
    ∀ s : State, ∃ t, exec (.ori rd rs1 imm) s = .next t ∧
      (∀ k, (t.reg rd).getLsbD k = ((s.reg rs1).getLsbD k || imm.getLsbD k)) ∧ RegisterTick rd s t

/-- `slli` (R180, R182): a left shift by word bits 25:20 (D4); the immediate's upper 6 bits are ignored. -/
def Obligations.SlliShiftsByTheLowSixBits : Prop :=
  ∀ (high shamt : BitVec 6) (rd rs1 : RegIdx),
    decode (high ++ shamt ++ rs1 ++ 0b001#3 ++ rd ++ 0b0010011#7) = .ok (.slli rd rs1 (high ++ shamt)) ∧
    ∀ s : State, ∃ t, exec (.slli rd rs1 (high ++ shamt)) s = .next t ∧
      (t.reg rd).toNat = (s.reg rs1).toNat * 2 ^ shamt.toNat % 2 ^ 64 ∧ RegisterTick rd s t

/-! ### Load and store (44_load_store.md, 20_memory.md) -/

/-- The address of a load or a store is `x[rs1]` plus the sign-extended offset modulo 2^64, not truncated to the memory
(R53, D26). -/
def Obligations.EffectiveAddressIsBasePlusOffset : Prop :=
  ∀ (s : State) (rs1 : RegIdx) (imm : BitVec 12),
    ((effectiveAddress s rs1 imm).toNat : Int) = ((s.reg rs1).toNat + imm.toInt) % 2 ^ 64

/-- `ld` at an address of at most 1016 loads 8 bytes little-endian, whatever funct3 holds and wherever the address is
aligned (R190, R192, R56; D6, D15, D16). -/
def Obligations.LdLoadsEightBytes : Prop :=
  ∀ (f3 : BitVec 3) (rd rs1 : RegIdx) (imm : BitVec 12),
    decode (imm ++ rs1 ++ f3 ++ rd ++ 0b0000011#7) = .ok (.ld f3 rd rs1 imm) ∧
    ∀ s : State, (effectiveAddress s rs1 imm).toNat ≤ 1016 → ∃ t, exec (.ld f3 rd rs1 imm) s = .next t ∧
      (∀ k, k < 8 → (t.reg rd).extractLsb' (8 * k) 8 =
        s.mem.readByte ((effectiveAddress s rs1 imm).toNat + k)) ∧ RegisterTick rd s t

/-- `sd` at an address of at most 1016 stores the 8 bytes of `x[rs2]` little-endian and changes no other byte and no
register, whatever funct3 holds (R191, R192, R55; D2, D15, D16). -/
def Obligations.SdStoresEightBytes : Prop :=
  ∀ (f3 : BitVec 3) (rs2 rs1 : RegIdx) (high : BitVec 7) (low : BitVec 5),
    decode (high ++ rs2 ++ rs1 ++ f3 ++ low ++ 0b0100011#7) = .ok (.sd f3 rs2 rs1 (high ++ low)) ∧
    ∀ s : State, ∀ addr : Word, effectiveAddress s rs1 (high ++ low) = addr → addr.toNat ≤ 1016 →
      ∃ t, exec (.sd f3 rs2 rs1 (high ++ low)) s = .next t ∧
        (∀ k, k < 8 → t.mem.readByte (addr.toNat + k) = (s.reg rs2).extractLsb' (8 * k) 8) ∧
        (∀ b, (b < addr.toNat ∨ addr.toNat + 8 ≤ b) → t.mem.readByte b = s.mem.readByte b) ∧
        RegistersSame s t ∧ ProgramSame s t ∧ TickEnds (s.pc + 4#64) s t

/-- A load or a store whose unsigned address exceeds 1016 raises `AddressOutOfRange(addr)`: nothing is read, written or
loaded, only `status` changes (R57, R214, R217; D1, D15). -/
def Obligations.AccessPastTheEndFaults : Prop :=
  ∀ (f3 : BitVec 3) (r rs1 : RegIdx) (imm : BitVec 12) (s : State),
    1016 < (effectiveAddress s rs1 imm).toNat →
    exec (.ld f3 r rs1 imm) s =
      .next { s with status := .faulted (.addressOutOfRange (effectiveAddress s rs1 imm)) } ∧
    exec (.sd f3 r rs1 imm) s =
      .next { s with status := .faulted (.addressOutOfRange (effectiveAddress s rs1 imm)) }

/-- A load in the tick after a store, with the same base and offset, gives the stored value (R193; D6). -/
def Obligations.StoreThenLoadReturnsTheStoredValue : Prop :=
  ∀ (f3 f3' : BitVec 3) (rd rs2 rs1 : RegIdx) (imm : BitVec 12) (s : State),
    (effectiveAddress s rs1 imm).toNat ≤ 1016 →
    ∃ t u, exec (.sd f3 rs2 rs1 imm) s = .next t ∧ exec (.ld f3' rd rs1 imm) t = .next u ∧
      u.reg rd = s.reg rs2

/-- A load `d` bytes above a store sees the store's upper bytes low and then what memory held (R54; D6). -/
def Obligations.OverlappingLoadSeesTheStoredBytes : Prop :=
  ∀ (f3 f3' : BitVec 3) (rd rs2 rs1 rb : RegIdx) (imm imm' : BitVec 12) (s : State) (d : Nat),
    1 ≤ d → d ≤ 7 → (effectiveAddress s rb imm').toNat = (effectiveAddress s rs1 imm).toNat + d →
    (effectiveAddress s rb imm').toNat ≤ 1016 →
    ∃ t u, exec (.sd f3 rs2 rs1 imm) s = .next t ∧ exec (.ld f3' rd rb imm') t = .next u ∧
      (∀ k, k + d < 8 → (u.reg rd).extractLsb' (8 * k) 8 = (s.reg rs2).extractLsb' (8 * (k + d)) 8) ∧
      (∀ k, k < 8 → 8 ≤ k + d → (u.reg rd).extractLsb' (8 * k) 8 =
        s.mem.readByte ((effectiveAddress s rb imm').toNat + k))

/-- R35: only `sd` writes data memory and only inside 0 to 1023; no instruction but `ld` depends on what it holds. `sd` on
any memory leaves that memory with the 8 bytes of `x[rs2]` put at the effective address, or that memory itself where the
access faults, and all else as on any other memory, so nothing it does or writes comes from what memory held. The host
reads data memory after the halt. That an access faults exactly above 1016 is the spec's decision D15 (log entry 20,
DEDUCED), and that a fault keeps the memory is its decision D1 (log entry 6, DEDUCED); R35 says neither. -/
def Obligations.OnlySdWritesAndOnlyLdReadsDataMemory : Prop :=
  (∀ (i : Instr) (s t : State), isStore i = false → exec i s = .next t → t.mem = s.mem) ∧
  (∀ (i : Instr) (s t : State) (a : Nat), exec i s = .next t → 1024 ≤ a →
    t.mem.readByte a = s.mem.readByte a) ∧
  (∀ (i : Instr) (s t : State) (m : Memory), isLoad i = false → isStore i = false → exec i s = .next t →
    exec i { s with mem := m } = .next { t with mem := m }) ∧
  (∀ (i : Instr), isStore i = true ↔ ∃ f3 rs2 rs1 imm, i = .sd f3 rs2 rs1 imm) ∧
  (∀ (f3 : BitVec 3) (rs2 rs1 : RegIdx) (imm : BitVec 12) (s t : State) (m : Memory),
    exec (.sd f3 rs2 rs1 imm) s = .next t →
    exec (.sd f3 rs2 rs1 imm) { s with mem := m } =
      .next { t with mem := (memWrite m (effectiveAddress s rs1 imm) (s.reg rs2)).getD m }) ∧
  (∀ (m m' : Memory) (addr v : Word), memWrite m addr v = some m' →
    ∀ a, m'.readByte a =
      if addr.toNat ≤ a ∧ a < addr.toNat + 8 then v.extractLsb' (8 * (a - addr.toNat)) 8 else m.readByte a) ∧
  (∀ (m : Memory) (addr v : Word), memWrite m addr v = none ↔ 1016 < addr.toNat) ∧
  (∀ (s : State) (a n : Nat), s.status = .halted → a + n ≤ 1024 →
    s.observeMemory a n = some ((List.range n).map fun k => s.mem.readByte (a + k)))

/-! ### Control transfer (45_branch.md, 10_state.md R25 to R28) -/

/-- `beq` compares all 64 bits, goes to `pc + offset` if they are equal and to `pc + 4` otherwise, and writes no register
and no byte, whatever funct3 holds (R200, R203; D3, D7, D9). -/
def Obligations.BeqBranchesOnEquality : Prop :=
  ∀ (f3 : BitVec 3) (rs1 rs2 : RegIdx) (i12 : BitVec 1) (i10_5 : BitVec 6) (i4_1 : BitVec 4) (i11 : BitVec 1),
    decode (i12 ++ i10_5 ++ rs2 ++ rs1 ++ f3 ++ i4_1 ++ i11 ++ 0b1100011#7) =
      .ok (.beq f3 rs1 rs2 (i12 ++ i11 ++ i10_5 ++ i4_1 ++ 0#1)) ∧
    ∀ (s : State) (offset : BitVec 13), ∃ t, exec (.beq f3 rs1 rs2 offset) s = .next t ∧
      RegistersSame s t ∧ MemorySame s t ∧ ProgramSame s t ∧ TickEnds t.pc s t ∧
      (s.reg rs1 = s.reg rs2 → (t.pc.toNat : Int) = (s.pc.toNat + offset.toInt) % 2 ^ 64) ∧
      (s.reg rs1 ≠ s.reg rs2 → t.pc = s.pc + 4#64)

/-- A taken branch back past address 0 wraps `pc` to near 2^64 and so ends the run normally (R28, R201; D9). -/
def Obligations.BackwardBranchPastZeroHalts : Prop :=
  ∀ (f3 : BitVec 3) (rs1 rs2 : RegIdx) (offset : BitVec 13) (s : State),
    s.reg rs1 = s.reg rs2 → (s.pc.toNat : Int) + offset.toInt < 0 → s.lastAddr.toNat < 2 ^ 63 →
    ∃ t, exec (.beq f3 rs1 rs2 offset) s = .next t ∧ t.status = .halted ∧
      (t.pc.toNat : Int) = 2 ^ 64 + s.pc.toNat + offset.toInt

/-- From an aligned `pc` a tick reaches a misaligned one exactly when it takes a branch whose offset is 2 modulo 4: bit 1
of the immediate is word bit 8 (R27; D14). -/
def Obligations.PcStaysAlignedButForBranchesBy2Mod4 : Prop :=
  ∀ (s t : State) (w : InstrWord), s.status = .running → s.fetch = some w → step s = .next t →
    s.pc.toNat % 4 = 0 →
    (t.pc.toNat % 4 ≠ 0 ↔ opcodeOf w = 99#7 ∧ s.reg (rs1Of w) = s.reg (rs2Of w) ∧ w.getLsbD 8 = true)

/-- Where every entry of the store is at a multiple of 4, a fetch at any other `pc` raises `InstructionFetchFault(pc)`
(R52, R202; D14). -/
def Obligations.MisalignedFetchFaults : Prop :=
  ∀ s : State, s.status = .running → (∀ e ∈ s.imem, e.1 % 4 = 0) → s.pc.toNat % 4 ≠ 0 →
    step s = .next { s with status := .faulted (.instructionFetchFault s.pc) }

/-! ### The tick (41_tick.md) and its faults (60_exceptions.md) -/

/-- A step of a running machine whose fetched word decodes to an instruction is that instruction's tick. -/
def Obligations.StepRunsTheDecodedInstruction : Prop :=
  ∀ (s : State) (w : InstrWord) (i : Instr), s.status = .running →
    s.imem.wordAt s.pc.toNat = some w → decode w = .ok i → step s = exec i s

/-- The word that `withFetchWord` places is the next instruction to run, and placing it changes no register, no byte,
neither `pc` nor `clock` (the model's own load of a program, log entry 2). -/
def Obligations.PlacedWordIsTheNextInstruction : Prop :=
  ∀ (s : State) (i : Instr), i.wellFormed = true →
    ∃ t, s.withFetchWord 32 (encode i).toNat = t ∧ step t = exec i t ∧ RegistersSame s t ∧ t.mem = s.mem ∧
      t.pc = s.pc ∧ t.clock = s.clock

/-- A running machine with no word at `pc` raises `InstructionFetchFault(pc)` (R52, R215; D14). -/
def Obligations.FetchMissFaults : Prop :=
  ∀ s : State, s.status = .running → (∀ e ∈ s.imem, e.1 ≠ s.pc.toNat) →
    step s = .next { s with status := .faulted (.instructionFetchFault s.pc) }

/-- From one state there is exactly one next state: no step refuses and none stops (R8; that a fault is a next state with
status Faulted is log entry 6). -/
def Obligations.EveryStateHasExactlyOneNextState : Prop :=
  ∀ s : State, ∃ t, step s = .next t ∧ ∀ u, step s = .next u → u = t

/-- A faulting tick changes `status` and nothing else (R217, R159; D1). -/
def Obligations.FaultingTickChangesOnlyStatus : Prop :=
  ∀ (s t : State) (f : Fault), s.status = .running → step s = .next t → t.status = .faulted f →
    t = { s with status := .faulted f }

/-- A tick that raises no fault adds 1 to `clock`, leaves the program alone, and halts exactly when the new `pc`, unsigned,
exceeds LAST_ADDR (R157, R158, R29; D9, D10). -/
def Obligations.CompletedTickEnds : Prop :=
  ∀ s t : State, s.status = .running → step s = .next t → ¬ t.Failed →
    t.clock = s.clock + 1#64 ∧ ProgramSame s t ∧
    (t.status = .halted ↔ s.lastAddr.toNat < t.pc.toNat) ∧
    (t.status = .running ↔ t.pc.toNat ≤ s.lastAddr.toNat)

/-- A tick that raises no fault leaves `pc` at `pc + imm` after a taken branch and at `pc + 4` after anything else, modulo
2^64 (R26, R133, R156; D7, D9). -/
def Obligations.NextPcFollowsTheBranchRule : Prop :=
  ∀ (s t : State) (w : InstrWord), s.status = .running → s.fetch = some w → step s = .next t → ¬ t.Failed →
    (opcodeOf w = 99#7 → s.reg (rs1Of w) = s.reg (rs2Of w) → t.pc = s.pc + immGen w) ∧
    (¬ (opcodeOf w = 99#7 ∧ s.reg (rs1Of w) = s.reg (rs2Of w)) → t.pc = s.pc + 4#64)

/-- Which fault a tick raises, if any: each cause under exactly the condition the spec gives it, with the information it
records (R211 to R215, R218; D1, D14, D15, D17). -/
def Obligations.FaultsAreRaisedExactlyAsListed : Prop :=
  ∀ s t : State, s.status = .running → step s = .next t →
    (∀ p, t.status = .faulted (.instructionFetchFault p) ↔ p = s.pc ∧ s.fetch = none) ∧
    (∀ w, t.status = .faulted (.unsupportedOpcode w) ↔ s.fetch = some w ∧ ¬ supportedOpcode (opcodeOf w)) ∧
    (∀ op f7 f3, t.status = .faulted (.unresolvedAluOperation op f7 f3) ↔
      op = 2#2 ∧ ¬ resolvedPair f7 f3 ∧ ∃ w, s.fetch = some w ∧ (opcodeOf w = 51#7 ∨ opcodeOf w = 19#7) ∧
        f7 = funct7Of w ∧ f3 = funct3Of w) ∧
    (∀ a, t.status = .faulted (.addressOutOfRange a) ↔
      1016 < a.toNat ∧ ∃ w, s.fetch = some w ∧ (opcodeOf w = 3#7 ∨ opcodeOf w = 35#7) ∧
        a = s.reg (rs1Of w) + immGen w)

/-- Once the run has ended nothing changes, however many steps follow (R250, R30; D25, log entry 7). -/
def Obligations.EndedMachineIsFrozen : Prop :=
  ∀ (s : State) (k : Nat), s.status ≠ .running → RunsTo k s s

/-- A faulted run never reaches a normal end (R210, R30; D1). -/
def Obligations.FaultedRunNeverHalts : Prop :=
  ∀ s : State, s.Failed → ¬ ∃ t, HaltsIn s t

/-- The register a tick changes is `x[rd]`, and only opcodes 51, 19 and 3 change one (R24). -/
def Obligations.OnlyRdChangesAndOnlyForThreeOpcodes : Prop :=
  ∀ (s t : State) (w : InstrWord) (r : RegIdx), s.status = .running → s.fetch = some w → step s = .next t →
    t.reg r ≠ s.reg r → (opcodeOf w = 51#7 ∨ opcodeOf w = 19#7 ∨ opcodeOf w = 3#7) ∧ r = rdOf w

/-- R22: register 0 is an ordinary register. It reads what was last written, an instruction with `rd = 0` writes it, no
other instruction changes it, and it is 0 after reset only because reset puts 0 there. -/
def Obligations.RegisterZeroIsOrdinary : Prop :=
  (∀ (s : State) (v : Word), (s.setReg 0 v).reg 0 = v) ∧
  (∀ (rs1 : RegIdx) (imm : BitVec 5) (s : State), ∃ t, exec (.addi 0 rs1 imm) s = .next t ∧
    t.reg 0 = s.reg rs1 + imm.setWidth 64) ∧
  (∀ (rd : RegIdx) (s t : State), exec (.add rd 0 0) s = .next t → t.reg rd = s.reg 0 + s.reg 0) ∧
  (∀ (i : Instr) (s t : State), destination i ≠ some 0 → exec i s = .next t → t.reg 0 = s.reg 0) ∧
  State.reset.reg 0 = 0#64

/-- R36: no step writes the instruction store or its marker, and no instruction reads the store as data. -/
def Obligations.InstructionStoreIsImmutableAndNotData : Prop :=
  (∀ s t : State, step s = .next t → t.imem = s.imem ∧ t.lastAddr = s.lastAddr) ∧
  (∀ (i : Instr) (s t : State) (p : InstrStore), exec i s = .next t →
    exec i { s with imem := p } = .next { t with imem := p })

/-- R130: the zero flag is 1 exactly when all 64 bits of the result are 0, for every operation, and nothing reads it when
`Branch = 0`. -/
def Obligations.ZeroFlagIsResultEqualsZero : Prop :=
  (∀ (op : AluOp) (a b : Word), (alu op a b).2 = true ↔ ∀ k, k < 64 → (alu op a b).1.getLsbD k = false) ∧
  (∀ (s : State) (zero : Bool) (imm : Word), nextPc s false zero imm = s.pc + 4#64)

/-- What the word `addi rd,rs1,imm` does for every 12-bit immediate: it adds 0 to 31, subtracts 1024 to 1055, and faults on
every other (R181, R183, R186, conflict C1; D8, D23). -/
def Obligations.AddiWordByItsImmediate : Prop :=
  ∀ (imm : BitVec 12) (rs1 rd : RegIdx) (s : State), s.status = .running →
    s.fetch = some (imm ++ rs1 ++ 0b000#3 ++ rd ++ 0b0010011#7) →
    (imm.toNat ≤ 31 → ∃ t, step s = .next t ∧
      (t.reg rd).toNat = ((s.reg rs1).toNat + imm.toNat) % 2 ^ 64) ∧
    (1024 ≤ imm.toNat → imm.toNat ≤ 1055 → ∃ t, step s = .next t ∧
      (t.reg rd).toNat = (2 ^ 64 + (s.reg rs1).toNat - imm.toNat) % 2 ^ 64) ∧
    ((31 < imm.toNat ∧ imm.toNat < 1024) ∨ 1055 < imm.toNat →
      step s = .next
        { s with status := .faulted (.unresolvedAluOperation 2#2 (imm.extractLsb' 5 7) 0#3) })

/-! ### Reset, launch and the host (10_state.md R37, 70_reset_and_hazards.md) -/

/-- Reset leaves `pc` 0, `clock` 0, every register 0 and the status Running, data memory at the given `DMEM_INIT`, and does
not touch the instruction store (R37, R240; D11, D12). That `State.reset` lists no program and no data byte is the
model's choice (log entries 3 and 4). -/
def Obligations.ResetLeavesTheSpecsValues : Prop :=
  (State.reset.pc = 0#64 ∧ State.reset.clock = 0#64 ∧ State.reset.status = .running ∧
    ∀ r, State.reset.reg r = 0#64) ∧
  ∀ (d : DmemInit) (s : State),
    (applyReset d s).pc = 0#64 ∧ (applyReset d s).clock = 0#64 ∧ (applyReset d s).status = .running ∧
    (∀ r, (applyReset d s).reg r = 0#64) ∧ ProgramSame s (applyReset d s) ∧
    ∀ (a : Nat) (h : a < 1024), (applyReset d s).mem.readByte a = d[a]

/-- The model starts a run from exactly the configurations of the boot contract and refuses every other (R242(a), (b), (d);
D13, D24). -/
def Obligations.LaunchAcceptsExactlyTheBootContract : Prop :=
  ∀ (entries : List (Word × InstrWord)) (last : Word) (d : DmemInit),
    ((∃ s, launch entries last d = .next s) ↔
      entries ≠ [] ∧ entries.length ≤ 256 ∧ (entries.map Prod.fst).Nodup ∧
      last ∈ entries.map Prod.fst ∧ ∀ e ∈ entries, e.1.toNat ≤ last.toNat) ∧
    ((∃ s, launch entries last d = .next s) ∨ ∃ r, launch entries last d = .refused r)

/-- A launched machine is the reset machine with the program at its addresses, `DMEM_INIT` in data memory, and the
invariant (R240, R242, R51; D11, D12, D13). -/
def Obligations.LaunchLoadsTheProgramIntoTheResetState : Prop :=
  ∀ (entries : List (Word × InstrWord)) (last : Word) (d : DmemInit) (s : State),
    launch entries last d = .next s →
    s.pc = 0#64 ∧ s.clock = 0#64 ∧ s.status = .running ∧ (∀ r, s.reg r = 0#64) ∧ s.lastAddr = last ∧
    (∀ (a : Word) (w : InstrWord), s.imem.wordAt a.toNat = some w ↔ (a, w) ∈ entries) ∧
    (∀ (a : Nat) (h : a < 1024), s.mem.readByte a = d[a]) ∧ s.Inv

/-- A store without an entry at address 0 is accepted, and its first tick raises `InstructionFetchFault(0)` (R242(c), R241;
D14). -/
def Obligations.FirstFetchIsAtAddressZero : Prop :=
  ∀ (entries : List (Word × InstrWord)) (last : Word) (d : DmemInit) (s : State),
    launch entries last d = .next s → (∀ e ∈ entries, e.1 ≠ 0#64) →
    step s = .next { s with status := .faulted (.instructionFetchFault 0#64) }

/-! ### The whole machine -/

/-- The invariant holds after reset. It rests on the model's choice of what `State.reset` holds where the spec gives no
value: the empty instruction store and LAST_ADDR 0 (log entry 3, DESIGN CHOICE) and no data byte listed (log entry 4, DESIGN
CHOICE). -/
def Obligations.InvariantHoldsAfterReset : Prop := State.reset.Inv

/-- Every step keeps the invariant: canonical memory and store, LAST_ADDR bounding the store, an even `pc`, a running
machine not past LAST_ADDR, a halted one past it (R27, R30, R55, R158). -/
def Obligations.EveryStepKeepsTheInvariant : Prop :=
  ∀ s t : State, s.Inv → step s = .next t → t.Inv

/-- The per-instruction machine and the block-level datapath of R160 are one machine: on every state they answer the same,
so the opcode table's meanings are what the control unit, the immediate generator, the ALU control unit, the ALU, the ports
and the multiplexers compute (R110 to R136, R150 to R160). -/
def Obligations.StepIsTheBlockLevelDatapath : Prop :=
  ∀ s : State, step s = datapathStep s

/-- Halting: N instructions without branches in the standard layout, launched with any `DMEM_INIT`, execute exactly N ticks
if none faults, running with `pc = 4k` after `k < N` ticks and halted with `pc = 4N` after N (R161, R243, S8). -/
def Obligations.StraightLineProgramHaltsAfterNTicks : Prop :=
  ∀ (ws : List InstrWord) (last : Word) (d : DmemInit) (s : State),
    launch (standardLayout 0#64 ws) last d = .next s →
    (∀ w ∈ ws, opcodeOf w ≠ 99#7) → SafeRun s →
    (∀ k, k < ws.length → ∃ t, RunsTo k s t ∧ t.status = .running ∧ t.pc.toNat = 4 * k ∧
      t.clock.toNat = k) ∧
    ∃ t, RunsTo ws.length s t ∧ t.Final ∧ t.pc.toNat = 4 * ws.length ∧ t.clock.toNat = ws.length

/-! ### What the host reads (70_reset_and_hazards.md R244) -/

/-- After a fault the host reads its cause and the state before the faulting tick, `pc` and data memory among it; after a
halt it reads `pc` and data memory over a range; while the run goes on, neither (R244, R227; D1). That a range which leaves
0 to 1023 gives none is the model's choice (log entry 13). -/
def Obligations.HostReadsTheEndOfARun : Prop :=
  (∀ (s t : State) (f : Fault), s.status = .running → step s = .next t → t.status = .faulted f →
    t.faultCause = some f ∧ t.beforeFault = some s ∧ t.observeTick = s.observeTick ∧ t.observePc = some s.pc ∧
    ∀ a n, a + n ≤ 1024 → t.observeMemory a n = some ((List.range n).map fun k => s.mem.readByte (a + k))) ∧
  (∀ s : State, s.status = .halted →
    s.observePc = some s.pc ∧ s.faultCause = none ∧ s.beforeFault = none ∧
    ∀ a n, a + n ≤ 1024 → s.observeMemory a n = some ((List.range n).map fun k => s.mem.readByte (a + k))) ∧
  (∀ (s : State) (a n : Nat), s.status = .running →
    s.observePc = none ∧ s.faultCause = none ∧ s.beforeFault = none ∧ s.observeMemory a n = none)
end

