-- ==== Sys2Proof/Laws/Decode.lean ====
section
/-! SUPPORT. The six fields of a word that is written as its fields (30_encoding.md R81), and each format of the encoder
in that form. -/

namespace Sys2Proof

/-- A word as its six fields at the fixed positions of R81, most significant first. -/
def layout (f7 : BitVec 7) (rs2 rs1 : RegIdx) (f3 : BitVec 3) (rd : RegIdx) (op : BitVec 7) : InstrWord :=
  f7 ++ rs2 ++ rs1 ++ f3 ++ rd ++ op

section fields

variable (f7 : BitVec 7) (rs2 rs1 : RegIdx) (f3 : BitVec 3) (rd : RegIdx) (op : BitVec 7)

@[simp] theorem opcodeOf_layout : opcodeOf (layout f7 rs2 rs1 f3 rd op) = op := by
  apply BitVec.eq_of_getLsbD_eq
  intro i hi
  simp only [opcodeOf, layout, BitVec.getLsbD_extractLsb', BitVec.getLsbD_append]
  rw [if_pos (by omega)]
  simp [hi]

@[simp] theorem rdOf_layout : rdOf (layout f7 rs2 rs1 f3 rd op) = rd := by
  apply BitVec.eq_of_getLsbD_eq
  intro i hi
  simp only [rdOf, layout, BitVec.getLsbD_extractLsb', BitVec.getLsbD_append]
  rw [if_neg (by omega), if_pos (by omega)]
  simp [hi]

@[simp] theorem funct3Of_layout : funct3Of (layout f7 rs2 rs1 f3 rd op) = f3 := by
  apply BitVec.eq_of_getLsbD_eq
  intro i hi
  simp only [funct3Of, layout, BitVec.getLsbD_extractLsb', BitVec.getLsbD_append]
  rw [if_neg (by omega), if_neg (by omega), if_pos (by omega)]
  simp only [hi, decide_true, Bool.true_and]
  congr 1
  omega

@[simp] theorem rs1Of_layout : rs1Of (layout f7 rs2 rs1 f3 rd op) = rs1 := by
  apply BitVec.eq_of_getLsbD_eq
  intro i hi
  simp only [rs1Of, layout, BitVec.getLsbD_extractLsb', BitVec.getLsbD_append]
  rw [if_neg (by omega), if_neg (by omega), if_neg (by omega), if_pos (by omega)]
  simp only [hi, decide_true, Bool.true_and]
  congr 1
  omega

@[simp] theorem rs2Of_layout : rs2Of (layout f7 rs2 rs1 f3 rd op) = rs2 := by
  apply BitVec.eq_of_getLsbD_eq
  intro i hi
  simp only [rs2Of, layout, BitVec.getLsbD_extractLsb', BitVec.getLsbD_append]
  rw [if_neg (by omega), if_neg (by omega), if_neg (by omega), if_neg (by omega), if_pos (by omega)]
  simp only [hi, decide_true, Bool.true_and]
  congr 1
  omega

@[simp] theorem funct7Of_layout : funct7Of (layout f7 rs2 rs1 f3 rd op) = f7 := by
  apply BitVec.eq_of_getLsbD_eq
  intro i hi
  simp only [funct7Of, layout, BitVec.getLsbD_extractLsb', BitVec.getLsbD_append]
  rw [if_neg (by omega), if_neg (by omega), if_neg (by omega), if_neg (by omega), if_neg (by omega)]
  simp only [hi, decide_true, Bool.true_and]
  congr 1
  omega

end fields

/-- Every word is the word of its six fields: no bit lies outside them (R81). -/
theorem layout_of_fields (w : InstrWord) :
    layout (funct7Of w) (rs2Of w) (rs1Of w) (funct3Of w) (rdOf w) (opcodeOf w) = w := by
  apply BitVec.eq_of_getLsbD_eq
  intro i hi
  simp only [layout, funct7Of, rs2Of, rs1Of, funct3Of, rdOf, opcodeOf, BitVec.getLsbD_append,
    BitVec.getLsbD_extractLsb']
  repeat' split
  all_goals
    rw [decide_eq_true (by omega), Bool.true_and]
    congr 1
    omega

/-- Two words with the same six fields are one word. -/
theorem word_ext {v w : InstrWord} (h7 : funct7Of v = funct7Of w) (h2 : rs2Of v = rs2Of w)
    (h1 : rs1Of v = rs1Of w) (h3 : funct3Of v = funct3Of w) (hd : rdOf v = rdOf w)
    (ho : opcodeOf v = opcodeOf w) : v = w := by
  rw [← layout_of_fields v, ← layout_of_fields w, h7, h2, h1, h3, hd, ho]

/-! The immediate fields in terms of the six fields: the overlap R83 and R81 speak of. -/

theorem immFieldI_eq (w : InstrWord) : immFieldI w = funct7Of w ++ rs2Of w := by
  apply BitVec.eq_of_getLsbD_eq
  intro i hi
  simp only [immFieldI, funct7Of, rs2Of, BitVec.getLsbD_append, BitVec.getLsbD_extractLsb', hi, decide_true,
    Bool.true_and]
  split
  · simp [*]
  · rw [decide_eq_true (by omega), Bool.true_and]
    congr 1
    omega

theorem immFieldS_eq (w : InstrWord) : immFieldS w = funct7Of w ++ rdOf w := rfl

/-- A field of a field is a field. -/
theorem extract_extract {n : Nat} (w : BitVec n) {a b c d : Nat} (h : c + d ≤ b) :
    (w.extractLsb' a b).extractLsb' c d = w.extractLsb' (a + c) d := by
  apply BitVec.eq_of_getLsbD_eq
  intro i hi
  have : c + i < b := by omega
  simp [hi, this, Nat.add_assoc]

theorem immFieldSB_eq (w : InstrWord) :
    immFieldSB w = (funct7Of w).extractLsb' 6 1 ++ (rdOf w).extractLsb' 0 1 ++ (funct7Of w).extractLsb' 0 6 ++
      (rdOf w).extractLsb' 1 4 ++ 0#1 := by
  have h1 : w.extractLsb' 31 1 = (funct7Of w).extractLsb' 6 1 := by
    rw [funct7Of, extract_extract w (by omega)]
  have h2 : w.extractLsb' 7 1 = (rdOf w).extractLsb' 0 1 := by
    rw [rdOf, extract_extract w (by omega)]
  have h3 : w.extractLsb' 25 6 = (funct7Of w).extractLsb' 0 6 := by
    rw [funct7Of, extract_extract w (by omega)]
  have h4 : w.extractLsb' 8 4 = (rdOf w).extractLsb' 1 4 := by
    rw [rdOf, extract_extract w (by omega)]
  rw [immFieldSB, h1, h2, h3, h4]

/-- An assembled branch offset is even (R85). -/
theorem immFieldSB_even (w : InstrWord) : (immFieldSB w).getLsbD 0 = false := by
  unfold immFieldSB
  rw [BitVec.getLsbD_append]
  rfl

/-! The formats of the encoder as fields. -/

theorem wordR_eq (f7 : BitVec 7) (rs2 rs1 : RegIdx) (f3 : BitVec 3) (rd : RegIdx) :
    wordR f7 rs2 rs1 f3 rd = layout f7 rs2 rs1 f3 rd 51#7 := rfl

theorem wordI_append_eq (f7 : BitVec 7) (imm : BitVec 5) (rs1 : RegIdx) (f3 : BitVec 3) (rd : RegIdx)
    (op : BitVec 7) : wordI (f7 ++ imm) rs1 f3 rd op = layout f7 imm rs1 f3 rd op := rfl

theorem append_extract12 (imm : BitVec 12) : imm.extractLsb' 5 7 ++ imm.extractLsb' 0 5 = imm := by
  apply BitVec.eq_of_getLsbD_eq
  intro i hi
  simp only [BitVec.getLsbD_append, BitVec.getLsbD_extractLsb']
  split
  · simp [*]
  · rw [decide_eq_true (by omega), Bool.true_and]
    congr 1
    omega

theorem wordI_eq (imm : BitVec 12) (rs1 : RegIdx) (f3 : BitVec 3) (rd : RegIdx) (op : BitVec 7) :
    wordI imm rs1 f3 rd op = layout (imm.extractLsb' 5 7) (imm.extractLsb' 0 5) rs1 f3 rd op := by
  rw [← wordI_append_eq, append_extract12]

theorem wordS_eq (imm : BitVec 12) (rs2 rs1 : RegIdx) (f3 : BitVec 3) :
    wordS imm rs2 rs1 f3 = layout (imm.extractLsb' 5 7) rs2 rs1 f3 (imm.extractLsb' 0 5) 35#7 := rfl

theorem wordSB_eq (offset : BitVec 13) (rs2 rs1 : RegIdx) (f3 : BitVec 3) :
    wordSB offset rs2 rs1 f3 =
      layout (offset.extractLsb' 12 1 ++ offset.extractLsb' 5 6) rs2 rs1 f3
        (offset.extractLsb' 1 4 ++ offset.extractLsb' 11 1) 99#7 := by
  apply BitVec.eq_of_getLsbD_eq
  intro i hi
  simp only [wordSB, layout, BitVec.getLsbD_append]
  repeat' split
  all_goals first | rfl | omega

/-! The pieces of an immediate and the immediate give each other. -/

theorem extract_append_high (a : BitVec 7) (b : BitVec 5) : (a ++ b).extractLsb' 5 7 = a := by
  apply BitVec.eq_of_getLsbD_eq
  intro i hi
  simp only [BitVec.getLsbD_extractLsb', BitVec.getLsbD_append, hi, decide_true, Bool.true_and]
  rw [if_neg (by omega)]
  congr 1
  omega

theorem extract_append_low (a : BitVec 7) (b : BitVec 5) : (a ++ b).extractLsb' 0 5 = b := by
  apply BitVec.eq_of_getLsbD_eq
  intro i hi
  simp only [BitVec.getLsbD_extractLsb', BitVec.getLsbD_append, hi, decide_true, Bool.true_and]
  rw [if_pos (by omega), Nat.zero_add]

/-- An even offset is assembled from the pieces its word carries (R85, R89). -/
theorem offset_of_pieces (o : BitVec 13) (h : o.getLsbD 0 = false) :
    (o.extractLsb' 12 1 ++ o.extractLsb' 5 6 : BitVec 7).extractLsb' 6 1 ++
      (o.extractLsb' 1 4 ++ o.extractLsb' 11 1 : BitVec 5).extractLsb' 0 1 ++
      (o.extractLsb' 12 1 ++ o.extractLsb' 5 6 : BitVec 7).extractLsb' 0 6 ++
      (o.extractLsb' 1 4 ++ o.extractLsb' 11 1 : BitVec 5).extractLsb' 1 4 ++ 0#1 = o := by
  apply BitVec.eq_of_getLsbD_eq
  intro i hi
  simp only [BitVec.getLsbD_append, BitVec.getLsbD_extractLsb']
  by_cases h0 : i = 0
  · subst h0
    simpa using h.symm
  · have : i = 1 ∨ i = 2 ∨ i = 3 ∨ i = 4 ∨ i = 5 ∨ i = 6 ∨ i = 7 ∨ i = 8 ∨ i = 9 ∨ i = 10 ∨ i = 11 ∨ i = 12 := by
      omega
    rcases this with rfl | rfl | rfl | rfl | rfl | rfl | rfl | rfl | rfl | rfl | rfl | rfl <;> simp

/-- The funct7 position of an SB-type word is offset[12] and offset[10:5] (R85). -/
theorem immFieldSB_high (w : InstrWord) :
    ((immFieldSB w).extractLsb' 12 1 ++ (immFieldSB w).extractLsb' 5 6 : BitVec 7) = funct7Of w := by
  apply BitVec.eq_of_getLsbD_eq
  intro i hi
  simp only [immFieldSB, funct7Of, BitVec.getLsbD_append, BitVec.getLsbD_extractLsb']
  have : i = 0 ∨ i = 1 ∨ i = 2 ∨ i = 3 ∨ i = 4 ∨ i = 5 ∨ i = 6 := by omega
  rcases this with rfl | rfl | rfl | rfl | rfl | rfl | rfl <;> simp

/-- The rd position of an SB-type word is offset[4:1] and offset[11] (R85). -/
theorem immFieldSB_low (w : InstrWord) :
    ((immFieldSB w).extractLsb' 1 4 ++ (immFieldSB w).extractLsb' 11 1 : BitVec 5) = rdOf w := by
  apply BitVec.eq_of_getLsbD_eq
  intro i hi
  simp only [immFieldSB, rdOf, BitVec.getLsbD_append, BitVec.getLsbD_extractLsb']
  have : i = 0 ∨ i = 1 ∨ i = 2 ∨ i = 3 ∨ i = 4 := by omega
  rcases this with rfl | rfl | rfl | rfl | rfl <;> simp

/-! What the decoder can answer, said once. -/

/-- An opcode-51 word that decodes matches one row of R92. -/
theorem decodeRType_ok {w : InstrWord} {i : Instr} (h : decodeRType w = .ok i) :
    (funct3Of w = 1#3 ∧ i = .sll (funct7Of w) (rdOf w) (rs1Of w) (rs2Of w)) ∨
    (funct3Of w = 0#3 ∧ funct7Of w = 0#7 ∧ i = .add (rdOf w) (rs1Of w) (rs2Of w)) ∨
    (funct3Of w = 0#3 ∧ funct7Of w = 32#7 ∧ i = .sub (rdOf w) (rs1Of w) (rs2Of w)) ∨
    (funct3Of w = 7#3 ∧ funct7Of w = 0#7 ∧ i = .and (rdOf w) (rs1Of w) (rs2Of w)) ∨
    (funct3Of w = 6#3 ∧ funct7Of w = 0#7 ∧ i = .or (rdOf w) (rs1Of w) (rs2Of w)) := by
  unfold decodeRType at h
  simp only at h
  split at h
  · simp_all
  split at h
  · simp_all
  split at h
  · simp_all
  split at h
  · simp_all
  split at h
  · simp_all
  · simp_all

/-- An opcode-19 word that decodes matches one row of R92. -/
theorem decodeIType_ok {w : InstrWord} {i : Instr} (h : decodeIType w = .ok i) :
    (funct3Of w = 1#3 ∧ i = .slli (rdOf w) (rs1Of w) (immFieldI w)) ∨
    (funct3Of w = 0#3 ∧ funct7Of w = 0#7 ∧ i = .addi (rdOf w) (rs1Of w) (rs2Of w)) ∨
    (funct3Of w = 0#3 ∧ funct7Of w = 32#7 ∧ i = .addiF7x20 (rdOf w) (rs1Of w) (rs2Of w)) ∨
    (funct3Of w = 7#3 ∧ funct7Of w = 0#7 ∧ i = .andi (rdOf w) (rs1Of w) (rs2Of w)) ∨
    (funct3Of w = 6#3 ∧ funct7Of w = 0#7 ∧ i = .ori (rdOf w) (rs1Of w) (rs2Of w)) := by
  have e : (w.extractLsb' 20 5) = rs2Of w := rfl
  unfold decodeIType at h
  simp only [e] at h
  split at h
  · simp_all
  split at h
  · simp_all
  split at h
  · simp_all
  split at h
  · simp_all
  split at h
  · simp_all
  · simp_all

/-- A word that decodes has one of the five opcodes (R91). -/
theorem decode_ok {w : InstrWord} {i : Instr} (h : decode w = .ok i) :
    (opcodeOf w = 51#7 ∧ decodeRType w = .ok i) ∨ (opcodeOf w = 19#7 ∧ decodeIType w = .ok i) ∨
    (opcodeOf w = 3#7 ∧ i = .ld (funct3Of w) (rdOf w) (rs1Of w) (immFieldI w)) ∨
    (opcodeOf w = 35#7 ∧ i = .sd (funct3Of w) (rs2Of w) (rs1Of w) (immFieldS w)) ∨
    (opcodeOf w = 99#7 ∧ i = .beq (funct3Of w) (rs1Of w) (rs2Of w) (immFieldSB w)) := by
  unfold decode at h
  split at h
  · simp_all
  split at h
  · simp_all
  split at h
  · simp_all
  split at h
  · simp_all
  split at h
  · simp_all
  · simp_all

end Sys2Proof
end

