-- ==== Sys2Proof/Laws/Memory.lean ====
section
/-! SUPPORT. The laws of data memory and of the instruction store: a read after a write, what a write leaves alone, and
that every operation keeps the canonical form. -/

namespace Sys2Proof.Machine

/-! One byte. -/

theorem Memory.readByte_without (m : Memory) (a a' : Nat) :
    (m.without a).readByte a' = if a' = a then Config.unlistedByte else m.readByte a' := by
  induction m with
  | nil => simp [Memory.without, Memory.readByte]
  | cons c m ih =>
    obtain ⟨k, b⟩ := c
    by_cases hk : k = a
    · subst hk
      have : Memory.without ((k, b) :: m) k = Memory.without m k := by simp [Memory.without]
      rw [this, ih]
      by_cases ha : a' = k
      · simp [ha]
      · simp [ha, Memory.readByte, Ne.symm ha]
    · have : Memory.without ((k, b) :: m) a = (k, b) :: Memory.without m a := by simp [Memory.without, hk]
      rw [this]
      by_cases ha : k = a'
      · subst ha; simp [Memory.readByte, hk]
      · simp only [Memory.readByte, ha, if_false, ih]

theorem Memory.readByte_insertCell (m : Memory) (a : Nat) (b : Byte) (a' : Nat) (h : ∀ c ∈ m, c.1 ≠ a) :
    (m.insertCell a b).readByte a' = if a' = a then b else m.readByte a' := by
  induction m with
  | nil => by_cases h' : a = a' <;> simp [Memory.insertCell, Memory.readByte, h', eq_comm]
  | cons c m ih =>
    obtain ⟨k, d⟩ := c
    have hk : k ≠ a := h (k, d) (by simp)
    have ih := ih fun c hc => h c (by simp [hc])
    unfold Memory.insertCell
    split
    · by_cases h' : a = a' <;> simp [Memory.readByte, h', eq_comm]
    · by_cases h' : k = a'
      · subst h'; simp [Memory.readByte, hk]
      · simp [Memory.readByte, h', ih]

/-- A byte reads what was last written to it, and a write leaves every other byte alone (R55). -/
theorem Memory.readByte_writeByte (m : Memory) (a : Nat) (b : Byte) (a' : Nat) :
    (m.writeByte a b).readByte a' = if a' = a then b else m.readByte a' := by
  unfold Memory.writeByte
  split
  · next h => rw [Memory.readByte_without, h]
  · rw [Memory.readByte_insertCell _ _ _ _ (by simp [Memory.without]), Memory.readByte_without]
    split <;> simp_all

/-! Eight bytes. -/

theorem Memory.readByte_writeBytes (m : Memory) (a : Nat) (bs : List Byte) (a' : Nat) :
    (m.writeBytes a bs).readByte a' =
      if h : a ≤ a' ∧ a' - a < bs.length then bs[a' - a] else m.readByte a' := by
  induction bs generalizing m a with
  | nil => simp [Memory.writeBytes]
  | cons b bs ih =>
    simp only [Memory.writeBytes, ih, Memory.readByte_writeByte, List.length_cons]
    by_cases h1 : a' = a
    · subst h1; simp
    · by_cases h2 : a + 1 ≤ a' ∧ a' - (a + 1) < bs.length
      · have h3 : a ≤ a' ∧ a' - a < bs.length + 1 := by omega
        have h4 : a' - a = (a' - (a + 1)) + 1 := by omega
        rw [dif_pos h2, dif_pos h3]
        simp only [h4, List.getElem_cons_succ]
      · have h3 : ¬(a ≤ a' ∧ a' - a < bs.length + 1) := by omega
        rw [dif_neg h2, dif_neg h3, if_neg h1]

theorem bytesOf_length (v : Word) : (bytesOf v).length = 8 := rfl

theorem bytesOf_get (v : Word) (i : Nat) (h : i < 8) : (bytesOf v)[i]'h = byteOf v i := by
  have : i = 0 ∨ i = 1 ∨ i = 2 ∨ i = 3 ∨ i = 4 ∨ i = 5 ∨ i = 6 ∨ i = 7 := by omega
  rcases this with rfl | rfl | rfl | rfl | rfl | rfl | rfl | rfl <;> rfl

/-- What a store leaves in memory: its 8 bytes little-endian, and everything else as before (R54, R55). -/
theorem Memory.readByte_store8 (m : Memory) (a : Nat) (v : Word) (a' : Nat) :
    (m.store8 a v).readByte a' =
      if a ≤ a' ∧ a' < a + 8 then byteOf v (a' - a) else m.readByte a' := by
  unfold Memory.store8
  rw [Memory.readByte_writeBytes]
  by_cases h : a ≤ a' ∧ a' - a < (bytesOf v).length
  · have h' : a ≤ a' ∧ a' < a + 8 := by rw [bytesOf_length] at h; omega
    rw [dif_pos h, if_pos h']
    exact bytesOf_get v _ h.2
  · have h' : ¬(a ≤ a' ∧ a' < a + 8) := by rw [bytesOf_length] at h; omega
    rw [dif_neg h, if_neg h']

/-- Bit `j` of a loaded value is bit `j % 8` of the byte at `a + j / 8` (R56). -/
theorem Memory.getLsbD_load8 (m : Memory) (a j : Nat) (h : j < 64) :
    (m.load8 a).getLsbD j = (m.readByte (a + j / 8)).getLsbD (j % 8) := by
  unfold Memory.load8
  have hj : j / 8 = 0 ∨ j / 8 = 1 ∨ j / 8 = 2 ∨ j / 8 = 3 ∨ j / 8 = 4 ∨ j / 8 = 5 ∨ j / 8 = 6 ∨ j / 8 = 7 := by
    omega
  have hd := Nat.div_add_mod j 8
  rcases hj with h' | h' | h' | h' | h' | h' | h' | h' <;> rw [h'] at hd ⊢ <;>
    simp only [BitVec.getLsbD_append] <;> generalize j % 8 = k at hd ⊢ <;> subst hd <;>
    repeat' (first | rw [if_pos (by omega)] | rw [if_neg (by omega)])
  all_goals first | rfl | (congr 1; omega)

theorem getLsbD_byteOf (v : Word) (i j : Nat) :
    (byteOf v i).getLsbD j = (decide (j < 8) && v.getLsbD (8 * i + j)) := by
  simp [byteOf]

/-- Byte `i` of a loaded value is the byte at `a + i` (R56). -/
theorem byteOf_load8 (m : Memory) (a i : Nat) (h : i < 8) : byteOf (m.load8 a) i = m.readByte (a + i) := by
  apply BitVec.eq_of_getLsbD_eq
  intro j hj
  rw [getLsbD_byteOf, Memory.getLsbD_load8 _ _ _ (by omega)]
  have h1 : (8 * i + j) / 8 = i := by omega
  have h2 : (8 * i + j) % 8 = j := by omega
  simp [h1, h2, hj]

/-- A 64-bit value is its 8 bytes. -/
theorem eq_of_byteOf_eq {u v : Word} (h : ∀ i, i < 8 → byteOf u i = byteOf v i) : u = v := by
  apply BitVec.eq_of_getLsbD_eq
  intro j hj
  have := congrArg (fun b => b.getLsbD (j % 8)) (h (j / 8) (by omega))
  simp only [getLsbD_byteOf] at this
  have h1 : 8 * (j / 8) + j % 8 = j := by omega
  have h2 : j % 8 < 8 := by omega
  simpa [h1, h2] using this

/-! The canonical form. -/

theorem Memory.wf_nil : Memory.wf [] := by simp [Memory.wf]

theorem Memory.without_wf {m : Memory} (h : m.wf) (a : Nat) : (m.without a).wf := by
  refine ⟨?_, fun c hc => h.2 c (List.mem_of_mem_filter hc)⟩
  exact h.1.sublist (List.filter_sublist.map _)

theorem Memory.mem_insertCell {m : Memory} {a : Nat} {b : Byte} {c : Host.Cell}
    (h : c ∈ m.insertCell a b) : c = (a, b) ∨ c ∈ m := by
  induction m with
  | nil => simpa [Memory.insertCell] using h
  | cons d m ih =>
    obtain ⟨k, e⟩ := d
    unfold Memory.insertCell at h
    split at h
    · simpa using h
    · rcases List.mem_cons.1 h with h | h
      · exact .inr (h ▸ List.mem_cons_self)
      · exact (ih h).imp id (List.mem_cons_of_mem _)

theorem Memory.insertCell_wf {m : Memory} (h : m.wf) {a : Nat} {b : Byte} (hne : ∀ c ∈ m, c.1 ≠ a)
    (ha : a < Config.dmemSize) (hb : b ≠ Config.unlistedByte) : (m.insertCell a b).wf := by
  refine ⟨?_, fun c hc => ?_⟩
  · obtain ⟨hs, -⟩ := h
    induction m with
    | nil => simp [Memory.insertCell]
    | cons d m ih =>
      obtain ⟨k, e⟩ := d
      have hk : k ≠ a := hne (k, e) (by simp)
      simp only [List.map_cons, List.pairwise_cons] at hs
      unfold Memory.insertCell
      split
      · next hlt =>
        simp only [List.map_cons, List.pairwise_cons]
        refine ⟨fun x hx => ?_, hs⟩
        rcases List.mem_cons.1 hx with rfl | hx
        · exact hlt
        · exact Nat.lt_trans hlt (hs.1 x hx)
      · next hge =>
        simp only [List.map_cons, List.pairwise_cons]
        refine ⟨fun x hx => ?_, ih (fun c hc => hne c (by simp [hc])) hs.2⟩
        obtain ⟨c, hc, rfl⟩ := List.mem_map.1 hx
        rcases Memory.mem_insertCell hc with rfl | hc
        · simp only; omega
        · exact hs.1 _ (List.mem_map_of_mem hc)
  · rcases Memory.mem_insertCell hc with rfl | hc
    · exact ⟨ha, hb⟩
    · exact h.2 c hc

/-- A write inside data memory keeps the canonical form. -/
theorem Memory.writeByte_wf {m : Memory} (h : m.wf) {a : Nat} (ha : a < Config.dmemSize) (b : Byte) :
    (m.writeByte a b).wf := by
  unfold Memory.writeByte
  split
  · exact Memory.without_wf h a
  · next hb => exact Memory.insertCell_wf (Memory.without_wf h a) (by simp [Memory.without]) ha hb

theorem Memory.writeBytes_wf {m : Memory} (h : m.wf) {a : Nat} {bs : List Byte}
    (ha : a + bs.length ≤ Config.dmemSize) : (m.writeBytes a bs).wf := by
  induction bs generalizing m a with
  | nil => exact h
  | cons b bs ih =>
    simp only [List.length_cons] at ha
    exact ih (Memory.writeByte_wf h (by omega) b) (by omega)

/-- A store that passed the range check keeps the canonical form. -/
theorem Memory.store8_wf {m : Memory} (h : m.wf) {a : Nat} (ha : a + 8 ≤ Config.dmemSize) (v : Word) :
    (m.store8 a v).wf :=
  Memory.writeBytes_wf h (by simpa [bytesOf_length] using ha)

/-- Memory built from at most 1024 bytes is in canonical form. -/
theorem Memory.ofBytes_wf {bs : List Byte} (h : bs.length ≤ Config.dmemSize) : (Memory.ofBytes 0 bs).wf :=
  Memory.writeBytes_wf Memory.wf_nil (by simpa using h)

theorem State.reset_mem_wf : State.reset.mem.wf := Memory.wf_nil

/-! The instruction store. -/

theorem InstrStore.wordAt_filter (m : InstrStore) (a a' : Nat) :
    InstrStore.wordAt (m.filter fun e => decide (e.1 ≠ a)) a' = if a' = a then none else m.wordAt a' := by
  induction m with
  | nil => simp [InstrStore.wordAt]
  | cons c m ih =>
    obtain ⟨k, w⟩ := c
    by_cases hk : k = a
    · subst hk
      rw [List.filter_cons_of_neg (by simp), ih]
      by_cases ha : a' = k
      · simp [ha]
      · simp [ha, InstrStore.wordAt, Ne.symm ha]
    · rw [List.filter_cons_of_pos (by simp [hk])]
      by_cases ha : k = a'
      · subst ha; simp [InstrStore.wordAt, hk]
      · simp only [InstrStore.wordAt, ha, if_false, ih]

theorem InstrStore.wordAt_insertEntry (m : InstrStore) (a : Nat) (w : InstrWord) (a' : Nat)
    (h : ∀ e ∈ m, e.1 ≠ a) :
    (m.insertEntry a w).wordAt a' = if a' = a then some w else m.wordAt a' := by
  induction m with
  | nil => by_cases h' : a = a' <;> simp [InstrStore.insertEntry, InstrStore.wordAt, h', eq_comm]
  | cons c m ih =>
    obtain ⟨k, v⟩ := c
    have hk : k ≠ a := h (k, v) (by simp)
    have ih := ih fun e he => h e (by simp [he])
    unfold InstrStore.insertEntry
    split
    · by_cases h' : a = a' <;> simp [InstrStore.wordAt, h', eq_comm]
    · by_cases h' : k = a'
      · subst h'; simp [InstrStore.wordAt, hk]
      · simp [InstrStore.wordAt, h', ih]

/-- The entry at an address is the one inserted there, every other address is as before. -/
theorem InstrStore.wordAt_put (m : InstrStore) (a : Nat) (w : InstrWord) (a' : Nat) :
    (m.put a w).wordAt a' = if a' = a then some w else m.wordAt a' := by
  unfold InstrStore.put
  rw [InstrStore.wordAt_insertEntry _ _ _ _ (by simp), InstrStore.wordAt_filter]
  split <;> simp_all

theorem InstrStore.wordAt_of_forall_ne {m : InstrStore} {a : Nat} (h : ∀ e ∈ m, e.1 ≠ a) : m.wordAt a = none := by
  induction m with
  | nil => rfl
  | cons e m ih =>
    unfold InstrStore.wordAt
    rw [if_neg (h e List.mem_cons_self)]
    exact ih fun e he => h e (List.mem_cons_of_mem _ he)

theorem InstrStore.mem_insertEntry {m : InstrStore} {a : Nat} {w : InstrWord} {e : Nat × InstrWord}
    (h : e ∈ m.insertEntry a w) : e = (a, w) ∨ e ∈ m := by
  induction m with
  | nil => simpa [InstrStore.insertEntry] using h
  | cons d m ih =>
    obtain ⟨k, v⟩ := d
    unfold InstrStore.insertEntry at h
    split at h
    · simpa using h
    · rcases List.mem_cons.1 h with h | h
      · exact .inr (h ▸ List.mem_cons_self)
      · exact (ih h).imp id (List.mem_cons_of_mem _)

theorem InstrStore.insertEntry_sorted {m : InstrStore} (hs : (m.map Prod.fst).Pairwise (· < ·)) {a : Nat}
    {w : InstrWord} (hne : ∀ e ∈ m, e.1 ≠ a) : ((m.insertEntry a w).map Prod.fst).Pairwise (· < ·) := by
  induction m with
  | nil => simp [InstrStore.insertEntry]
  | cons d m ih =>
    obtain ⟨k, v⟩ := d
    have hk : k ≠ a := hne (k, v) (by simp)
    simp only [List.map_cons, List.pairwise_cons] at hs
    unfold InstrStore.insertEntry
    split
    · next hlt =>
      simp only [List.map_cons, List.pairwise_cons]
      refine ⟨fun x hx => ?_, hs⟩
      rcases List.mem_cons.1 hx with rfl | hx
      · exact hlt
      · exact Nat.lt_trans hlt (hs.1 x hx)
    · next hge =>
      simp only [List.map_cons, List.pairwise_cons]
      refine ⟨fun x hx => ?_, ih hs.2 (fun e he => hne e (by simp [he]))⟩
      obtain ⟨e, he, rfl⟩ := List.mem_map.1 hx
      rcases InstrStore.mem_insertEntry he with rfl | he
      · simp only; omega
      · exact hs.1 _ (List.mem_map_of_mem he)

theorem InstrStore.put_sorted {m : InstrStore} (hs : (m.map Prod.fst).Pairwise (· < ·)) (a : Nat)
    (w : InstrWord) : ((m.put a w).map Prod.fst).Pairwise (· < ·) :=
  InstrStore.insertEntry_sorted (hs.sublist (List.filter_sublist.map _)) (by simp)

theorem InstrStore.mem_put {m : InstrStore} {a : Nat} {w : InstrWord} {e : Nat × InstrWord}
    (h : e ∈ m.put a w) : e = (a, w) ∨ e ∈ m :=
  (InstrStore.mem_insertEntry h).imp id List.mem_of_mem_filter

theorem InstrStore.length_insertEntry (m : InstrStore) (a : Nat) (w : InstrWord) :
    (m.insertEntry a w).length = m.length + 1 := by
  induction m with
  | nil => rfl
  | cons d m ih =>
    obtain ⟨k, v⟩ := d
    unfold InstrStore.insertEntry
    split <;> simp [ih]

theorem InstrStore.length_put_le (m : InstrStore) (a : Nat) (w : InstrWord) :
    (m.put a w).length ≤ m.length + 1 := by
  unfold InstrStore.put
  rw [InstrStore.length_insertEntry]
  exact Nat.succ_le_succ (List.length_filter_le _ _)

end Sys2Proof.Machine
end

