-- ==== Sys2Proof/Laws/State.lean ====
section
/-! SUPPORT. One lemma per field per update of State, so that no later proof unfolds a record update. -/

namespace Sys2Proof.Machine

variable (s : State) (r : RegIdx) (v : Word) (m : Memory) (f : Fault) (w : InstrWord) (p : Word)

@[simp] theorem State.setReg_pc : (s.setReg r v).pc = s.pc := rfl
@[simp] theorem State.setReg_clock : (s.setReg r v).clock = s.clock := rfl
@[simp] theorem State.setReg_mem : (s.setReg r v).mem = s.mem := rfl
@[simp] theorem State.setReg_status : (s.setReg r v).status = s.status := rfl
@[simp] theorem State.setReg_imem : (s.setReg r v).imem = s.imem := rfl
@[simp] theorem State.setReg_lastAddr : (s.setReg r v).lastAddr = s.lastAddr := rfl

@[simp] theorem State.setMem_x : (s.setMem m).x = s.x := rfl
@[simp] theorem State.setMem_pc : (s.setMem m).pc = s.pc := rfl
@[simp] theorem State.setMem_clock : (s.setMem m).clock = s.clock := rfl
@[simp] theorem State.setMem_mem : (s.setMem m).mem = m := rfl
@[simp] theorem State.setMem_status : (s.setMem m).status = s.status := rfl
@[simp] theorem State.setMem_imem : (s.setMem m).imem = s.imem := rfl
@[simp] theorem State.setMem_lastAddr : (s.setMem m).lastAddr = s.lastAddr := rfl
@[simp] theorem State.setMem_reg : (s.setMem m).reg r = s.reg r := rfl
@[simp] theorem State.setMem_self : s.setMem s.mem = s := rfl

@[simp] theorem State.fail_x : (s.fail f).x = s.x := rfl
@[simp] theorem State.fail_pc : (s.fail f).pc = s.pc := rfl
@[simp] theorem State.fail_clock : (s.fail f).clock = s.clock := rfl
@[simp] theorem State.fail_mem : (s.fail f).mem = s.mem := rfl
@[simp] theorem State.fail_status : (s.fail f).status = .faulted f := rfl
@[simp] theorem State.fail_imem : (s.fail f).imem = s.imem := rfl
@[simp] theorem State.fail_lastAddr : (s.fail f).lastAddr = s.lastAddr := rfl
@[simp] theorem State.fail_reg : (s.fail f).reg r = s.reg r := rfl

@[simp] theorem State.advance_x : (s.advance p).x = s.x := rfl
@[simp] theorem State.advance_pc : (s.advance p).pc = p := rfl
@[simp] theorem State.advance_clock : (s.advance p).clock = s.clock + 1#64 := rfl
@[simp] theorem State.advance_mem : (s.advance p).mem = s.mem := rfl
@[simp] theorem State.advance_status :
    (s.advance p).status = if s.lastAddr < p then .halted else s.status := rfl
@[simp] theorem State.advance_imem : (s.advance p).imem = s.imem := rfl
@[simp] theorem State.advance_lastAddr : (s.advance p).lastAddr = s.lastAddr := rfl
@[simp] theorem State.advance_reg : (s.advance p).reg r = s.reg r := rfl

@[simp] theorem State.loadAtPc_x : (s.loadAtPc w).x = s.x := rfl
@[simp] theorem State.loadAtPc_pc : (s.loadAtPc w).pc = s.pc := rfl
@[simp] theorem State.loadAtPc_clock : (s.loadAtPc w).clock = s.clock := rfl
@[simp] theorem State.loadAtPc_mem : (s.loadAtPc w).mem = s.mem := rfl
@[simp] theorem State.loadAtPc_status : (s.loadAtPc w).status = .running := rfl
@[simp] theorem State.loadAtPc_imem : (s.loadAtPc w).imem = s.imem.put s.pc.toNat w := rfl

/-- A register reads what was last written to it, index 0 included (R22). -/
@[simp] theorem State.setReg_reg_self : (s.setReg r v).reg r = v := by
  simp [State.reg, State.setReg]

/-- No two registers alias (R21). -/
@[simp] theorem State.setReg_reg_of_ne {r r' : RegIdx} (h : r' ≠ r) : (s.setReg r v).reg r' = s.reg r' := by
  have hne : r.toNat ≠ r'.toNat := fun e => h (BitVec.eq_of_toNat_eq e.symm)
  simp [State.reg, State.setReg, hne]

/-- Every register is 0 after reset (R37). -/
@[simp] theorem State.reset_reg : State.reset.reg r = 0#64 := by
  simp [State.reg, State.reset]

end Sys2Proof.Machine
end

