-- ==== Sys2Proof/Laws/Ops.lean ====
section
/-! SUPPORT. What each shared operation can answer, said once: the range check, the two ways a tick ends, and the
meanings as equations. -/

namespace Sys2Proof.Machine

/-! The range check and the 8-byte access (R55 to R57). -/

theorem inRange_iff (a : Word) : inRange a = true ↔ a.toNat ≤ 1016 :=
  decide_eq_true_iff

theorem memRead_of_inRange {m : Memory} {a : Word} (h : a.toNat ≤ 1016) :
    memRead m a = some (m.load8 a.toNat) := by simp [memRead, inRange_iff, h]

theorem memRead_of_outOfRange {m : Memory} {a : Word} (h : 1016 < a.toNat) : memRead m a = none := by
  simp [memRead, inRange_iff, h]

theorem memWrite_of_inRange {m : Memory} {a v : Word} (h : a.toNat ≤ 1016) :
    memWrite m a v = some (m.store8 a.toNat v) := by simp [memWrite, inRange_iff, h]

theorem memWrite_of_outOfRange {m : Memory} {a v : Word} (h : 1016 < a.toNat) : memWrite m a v = none := by
  simp [memWrite, inRange_iff, h]

theorem memWrite_eq_none_iff {m : Memory} {a v : Word} : memWrite m a v = none ↔ 1016 < a.toNat := by
  refine ⟨fun h => ?_, memWrite_of_outOfRange⟩
  by_contra hc
  rw [memWrite_of_inRange (by omega)] at h
  cases h

/-- The memory that a store leaves, byte by byte: the stored bytes come from `v` alone (R55). -/
theorem readByte_memWrite {m m' : Memory} {addr v : Word} (h : memWrite m addr v = some m') (a : Nat) :
    m'.readByte a = if addr.toNat ≤ a ∧ a < addr.toNat + 8 then byteOf v (a - addr.toNat) else m.readByte a := by
  rcases Nat.lt_or_ge 1016 addr.toNat with hr | hr
  · rw [memWrite_of_outOfRange hr] at h
    cases h
  · rw [memWrite_of_inRange hr] at h
    cases h
    exact Memory.readByte_store8 m addr.toNat v a

/-! The ends of a tick. -/

theorem completeTick_next_iff {p : Word} {s t : State} : completeTick p s = .next t ↔ t = s.advance p := by
  simp [completeTick, eq_comm]

theorem raiseFault_next_iff {f : Fault} {s t : State} : raiseFault f s = .next t ↔ t = s.fail f := by
  simp [raiseFault, eq_comm]

theorem writeBack_eq (rd : RegIdx) (v : Word) (s : State) :
    writeBack rd v s = .next ((s.setReg rd v).advance (nextInLine s)) := rfl

theorem aluTick_eq (op : AluOp) (rd : RegIdx) (a b : Word) (s : State) :
    aluTick op rd a b s = .next ((s.setReg rd (aluResult op a b)).advance (nextInLine s)) := rfl

/-! The operand forms as numbers. -/

/-- The shift distance is operand 2 modulo 64 (R129). -/
theorem shiftDistance_eq (b : Word) : shiftDistance b = b.toNat % 64 := by
  simp [shiftDistance, BitVec.extractLsb'_toNat]

/-- A positive 12-bit immediate is itself (R87). -/
theorem sext12_toNat {x : BitVec 12} (h : x.toNat < 2048) : (sext12 x).toNat = x.toNat := by
  have hm : x.msb = false := by
    rw [BitVec.msb_eq_decide]
    simpa using h
  rw [sext12, BitVec.signExtend_eq_setWidth_of_msb_false hm, BitVec.toNat_setWidth]
  omega

/-- The immediate operand of `addi`, `andi` and `ori` is imm[4:0] (R181, R184, R185). -/
theorem immOperand_zero (imm : BitVec 5) : immOperand 0#7 imm = imm.setWidth 64 := by
  have := imm.isLt
  have e : ((0#7 ++ imm : BitVec 12)).toNat = imm.toNat := by
    rw [show ((0#7 ++ imm : BitVec 12)).toNat = _ from BitVec.toNat_append 0#7 imm]
    simp
  apply BitVec.eq_of_toNat_eq
  rw [immOperand, sext12_toNat (by omega), e, BitVec.toNat_setWidth]
  omega

/-- The immediate operand of the subtracting `addi` word is 1024 + imm[4:0] (R183). -/
theorem immOperand_32 (imm : BitVec 5) : immOperand 32#7 imm = 1024#64 + imm.setWidth 64 := by
  have := imm.isLt
  have e : ((32#7 ++ imm : BitVec 12)).toNat = 1024 + imm.toNat := by
    rw [show ((32#7 ++ imm : BitVec 12)).toNat = _ from BitVec.toNat_append 32#7 imm]
    exact (Nat.shiftLeft_add_eq_or_of_lt (i := 5) this 32).symm
  apply BitVec.eq_of_toNat_eq
  rw [immOperand, sext12_toNat (by omega), e, BitVec.toNat_add, BitVec.toNat_setWidth]
  simp
  omega

/-- Adding a sign-extended value modulo 2^64 is adding its signed reading. -/
theorem add_signExtend_toNat {n : Nat} (h : n ≤ 64) (a : Word) (x : BitVec n) :
    ((a + x.signExtend 64).toNat : Int) = (a.toNat + x.toInt) % 2 ^ 64 := by
  have h1 : (x.signExtend 64).toInt = x.toInt := BitVec.toInt_signExtend_of_le h
  have h2 := BitVec.toInt_eq_toNat_cond (x.signExtend 64)
  rw [h1] at h2
  rw [BitVec.toNat_add]
  split at h2 <;> push_cast <;> omega

/-! The meanings of the instructions that can fault or branch, as equations. -/

theorem execLd_of_inRange (f3 : BitVec 3) (rd rs1 : RegIdx) (imm : BitVec 12) {s : State}
    (h : (effectiveAddress s rs1 imm).toNat ≤ 1016) :
    execLd f3 rd rs1 imm s =
      .next ((s.setReg rd (s.mem.load8 (effectiveAddress s rs1 imm).toNat)).advance (nextInLine s)) := by
  rw [execLd, memRead_of_inRange h]
  rfl

theorem execLd_of_outOfRange (f3 : BitVec 3) (rd rs1 : RegIdx) (imm : BitVec 12) {s : State}
    (h : 1016 < (effectiveAddress s rs1 imm).toNat) :
    execLd f3 rd rs1 imm s = .next (s.fail (.addressOutOfRange (effectiveAddress s rs1 imm))) := by
  rw [execLd, memRead_of_outOfRange h]
  rfl

theorem execSd_of_inRange (f3 : BitVec 3) (rs2 rs1 : RegIdx) (imm : BitVec 12) {s : State}
    (h : (effectiveAddress s rs1 imm).toNat ≤ 1016) :
    execSd f3 rs2 rs1 imm s =
      .next ((s.setMem (s.mem.store8 (effectiveAddress s rs1 imm).toNat (s.reg rs2))).advance (nextInLine s)) := by
  rw [execSd, memWrite_of_inRange h]
  rfl

theorem execSd_of_outOfRange (f3 : BitVec 3) (rs2 rs1 : RegIdx) (imm : BitVec 12) {s : State}
    (h : 1016 < (effectiveAddress s rs1 imm).toNat) :
    execSd f3 rs2 rs1 imm s = .next (s.fail (.addressOutOfRange (effectiveAddress s rs1 imm))) := by
  rw [execSd, memWrite_of_outOfRange h]
  rfl

/-- The zero flag of the subtraction is the equality of all 64 bits (R121, R130). -/
theorem zeroFlag_sub (a b : Word) : (alu .sub a b).2 = decide (a = b) := by
  simp only [alu, aluResult, zeroFlag]
  by_cases h : a = b
  · simp [h]
  · have : a - b ≠ 0#64 := by
      intro h'
      exact h (by bv_omega)
    simp [h, this]

theorem execBeq_eq (f3 : BitVec 3) (rs1 rs2 : RegIdx) (offset : BitVec 13) (s : State) :
    execBeq f3 rs1 rs2 offset s =
      .next (s.advance (if s.reg rs1 = s.reg rs2 then s.pc + sext13 offset else nextInLine s)) := by
  unfold execBeq nextPc
  rw [zeroFlag_sub]
  by_cases h : s.reg rs1 = s.reg rs2 <;> simp [h, completeTick]

/-! Every instruction ends its tick in one of three ways. -/

/-- What any instruction can do: it completes with at most one register written, it completes with a store, or it
raises `AddressOutOfRange` and changes nothing but `status`. -/
theorem exec_cases (i : Instr) (s : State) :
    (∃ r v p, exec i s = .next ((s.setReg r v).advance p)) ∨
    (∃ p, exec i s = .next (s.advance p)) ∨
    (∃ m p, exec i s = .next ((s.setMem m).advance p) ∧ (s.mem.wf → m.wf)) ∨
    (∃ a, 1016 < a.toNat ∧ exec i s = .next (s.fail (.addressOutOfRange a))) := by
  cases i with
  | add | sub | and | or | sll | addi | addiF7x20 | andi | ori | slli => exact .inl ⟨_, _, _, rfl⟩
  | ld f3 rd rs1 imm =>
    by_cases h : (effectiveAddress s rs1 imm).toNat ≤ 1016
    · exact .inl ⟨_, _, _, execLd_of_inRange f3 rd rs1 imm h⟩
    · exact .inr (.inr (.inr ⟨_, by omega, execLd_of_outOfRange f3 rd rs1 imm (by omega)⟩))
  | sd f3 rs2 rs1 imm =>
    by_cases h : (effectiveAddress s rs1 imm).toNat ≤ 1016
    · exact .inr (.inr (.inl ⟨_, _, execSd_of_inRange f3 rs2 rs1 imm h,
        fun hm => Memory.store8_wf hm (by simp only [Config.dmemSize]; omega) _⟩))
    · exact .inr (.inr (.inr ⟨_, by omega, execSd_of_outOfRange f3 rs2 rs1 imm (by omega)⟩))
  | beq f3 rs1 rs2 offset => exact .inr (.inl ⟨_, execBeq_eq f3 rs1 rs2 offset s⟩)

/-! A step. -/

theorem step_of_running {s : State} (h : s.status = .running) :
    step s = match fetchDecode s with | .ok i => exec i s | .error f => raiseFault f s := by
  cases hf : fetchDecode s <;> simp only [step, h, hf]

/-- A step of a running machine raises a fault of fetch or decode, or runs the instruction at `pc`. -/
theorem step_cases {s : State} (h : s.status = .running) :
    (∃ f, fetchDecode s = .error f ∧ step s = .next (s.fail f)) ∨
    (∃ w i, s.fetch = some w ∧ decode w = .ok i ∧ step s = exec i s) := by
  rw [step_of_running h]
  cases hf : s.fetch with
  | none => exact .inl ⟨.instructionFetchFault s.pc, by simp only [fetchDecode, hf], by simp only [fetchDecode, hf]; rfl⟩
  | some w =>
    cases hd : decode w with
    | error e => exact .inl ⟨decodeFault e, by simp only [fetchDecode, hf, hd], by simp only [fetchDecode, hf, hd]; rfl⟩
    | ok i => exact .inr ⟨w, i, rfl, hd, by simp only [fetchDecode, hf, hd]⟩

theorem step_of_ended {s : State} (h : s.status ≠ .running) : step s = .next s := by
  unfold step
  split
  · contradiction
  · rfl
  · rfl

end Sys2Proof.Machine
end

