-- ==== Sys2Proof/Laws/Observe.lean ====
section
/-! SUPPORT. What each reading of the host answers, by the status of the machine. -/

namespace Sys2Proof.Machine

/-- A dump inside 0 to 1023 gives the bytes of the range in order. -/
theorem Memory.dump_eq (m : Memory) {a n : Nat} (h : a + n ≤ 1024) :
    m.dump a n = some ((List.range n).map fun k => m.readByte (a + k)) := by
  induction n generalizing a with
  | zero => rfl
  | succ n ih =>
    have ha : a < Config.dmemSize := by simp only [Config.dmemSize]; omega
    rw [Memory.dump, if_pos ha, ih (by omega), List.range_succ_eq_map]
    simp [Nat.add_assoc, Nat.add_comm 1]

/-- The run has ended exactly when no tick executes any more (R150). -/
theorem State.ended_iff {s : State} : s.ended = true ↔ s.status ≠ .running := by
  cases h : s.status <;> simp [State.ended, h]

theorem State.observePc_of_running {s : State} (h : s.status = .running) : s.observePc = none := by
  simp [State.observePc, State.ended_iff, h]

theorem State.observePc_of_ended {s : State} (h : s.status ≠ .running) : s.observePc = some s.pc := by
  simp [State.observePc, State.ended_iff, h]

theorem State.observeMemory_of_running {s : State} (h : s.status = .running) (a n : Nat) :
    s.observeMemory a n = none := by
  simp [State.observeMemory, State.ended_iff, h]

theorem State.observeMemory_of_ended {s : State} (h : s.status ≠ .running) {a n : Nat} (hn : a + n ≤ 1024) :
    s.observeMemory a n = some ((List.range n).map fun k => s.mem.readByte (a + k)) := by
  rw [State.observeMemory, if_pos (State.ended_iff.2 h), Memory.dump_eq _ hn]

@[simp] theorem State.faultCause_fail (s : State) (f : Fault) : (s.fail f).faultCause = some f := rfl

@[simp] theorem State.observeTick_fail (s : State) (f : Fault) : (s.fail f).observeTick = s.observeTick := rfl

/-- What the host reads after a fault raised by a running machine is the state before it (R217, R244). -/
theorem State.beforeFault_fail {s : State} (h : s.status = .running) (f : Fault) : (s.fail f).beforeFault = some s := by
  simp only [State.beforeFault, State.fail]
  rw [← h]

end Sys2Proof.Machine
end

