-- ==== Sys2Proof/Laws/PerInstr.lean ====
section
/-! SUPPORT. Statements made of every instruction, one lemma per constructor of Instr. -/

namespace Sys2Proof.Laws.EncodedFields

open Sys2Proof

/-- The six fields of an instruction's word, as its row of the opcode table and its format give them (R81 to R85, R92,
R93). -/
def Statement (i : Instr) : Prop :=
  match i with
  | .add rd rs1 rs2 => encode i = layout 0#7 rs2 rs1 0#3 rd 51#7
  | .sub rd rs1 rs2 => encode i = layout 32#7 rs2 rs1 0#3 rd 51#7
  | .and rd rs1 rs2 => encode i = layout 0#7 rs2 rs1 7#3 rd 51#7
  | .or rd rs1 rs2 => encode i = layout 0#7 rs2 rs1 6#3 rd 51#7
  | .sll funct7 rd rs1 rs2 => encode i = layout funct7 rs2 rs1 1#3 rd 51#7
  | .addi rd rs1 imm => encode i = layout 0#7 imm rs1 0#3 rd 19#7
  | .addiF7x20 rd rs1 imm => encode i = layout 32#7 imm rs1 0#3 rd 19#7
  | .andi rd rs1 imm => encode i = layout 0#7 imm rs1 7#3 rd 19#7
  | .ori rd rs1 imm => encode i = layout 0#7 imm rs1 6#3 rd 19#7
  | .slli rd rs1 imm =>
    encode i = layout (imm.extractLsb' 5 7) (imm.extractLsb' 0 5) rs1 1#3 rd 19#7
  | .ld funct3 rd rs1 imm =>
    encode i = layout (imm.extractLsb' 5 7) (imm.extractLsb' 0 5) rs1 funct3 rd 3#7
  | .sd funct3 rs2 rs1 imm =>
    encode i = layout (imm.extractLsb' 5 7) rs2 rs1 funct3 (imm.extractLsb' 0 5) 35#7
  | .beq funct3 rs1 rs2 offset =>
    encode i = layout (offset.extractLsb' 12 1 ++ offset.extractLsb' 5 6) rs2 rs1 funct3
      (offset.extractLsb' 1 4 ++ offset.extractLsb' 11 1) 99#7

theorem add (rd rs1 rs2 : RegIdx) : Statement (.add rd rs1 rs2) := wordR_eq _ _ _ _ _
theorem sub (rd rs1 rs2 : RegIdx) : Statement (.sub rd rs1 rs2) := wordR_eq _ _ _ _ _
theorem and (rd rs1 rs2 : RegIdx) : Statement (.and rd rs1 rs2) := wordR_eq _ _ _ _ _
theorem or (rd rs1 rs2 : RegIdx) : Statement (.or rd rs1 rs2) := wordR_eq _ _ _ _ _
theorem sll (funct7 : BitVec 7) (rd rs1 rs2 : RegIdx) : Statement (.sll funct7 rd rs1 rs2) := wordR_eq _ _ _ _ _
theorem addi (rd rs1 : RegIdx) (imm : BitVec 5) : Statement (.addi rd rs1 imm) := wordI_append_eq _ _ _ _ _ _
theorem addiF7x20 (rd rs1 : RegIdx) (imm : BitVec 5) : Statement (.addiF7x20 rd rs1 imm) :=
  wordI_append_eq _ _ _ _ _ _
theorem andi (rd rs1 : RegIdx) (imm : BitVec 5) : Statement (.andi rd rs1 imm) := wordI_append_eq _ _ _ _ _ _
theorem ori (rd rs1 : RegIdx) (imm : BitVec 5) : Statement (.ori rd rs1 imm) := wordI_append_eq _ _ _ _ _ _
theorem slli (rd rs1 : RegIdx) (imm : BitVec 12) : Statement (.slli rd rs1 imm) := wordI_eq _ _ _ _ _
theorem ld (funct3 : BitVec 3) (rd rs1 : RegIdx) (imm : BitVec 12) : Statement (.ld funct3 rd rs1 imm) :=
  wordI_eq _ _ _ _ _
theorem sd (funct3 : BitVec 3) (rs2 rs1 : RegIdx) (imm : BitVec 12) : Statement (.sd funct3 rs2 rs1 imm) :=
  wordS_eq _ _ _ _
theorem beq (funct3 : BitVec 3) (rs1 rs2 : RegIdx) (offset : BitVec 13) :
    Statement (.beq funct3 rs1 rs2 offset) := wordSB_eq _ _ _ _

end Sys2Proof.Laws.EncodedFields
end

