-- ==== Sys2Proof/Tests/Slice0.lean ====
section
/-! SUPPORT. The model's own tests. Expected values come from the spec: its encodings (30_encoding.md R82 to R99), its
worked examples and vectors (95_test_vectors.md, named in each docstring). The second half shows, for every statement
with hypotheses, a concrete input that meets them. -/

namespace Sys2Proof.Tests

open Sys2Proof Sys2Proof.Machine

/-! ### Helpers -/

/-- A single-tick configuration of 95_test_vectors.md: one word at `pc`, registers and bytes not listed 0. -/
def machine (w : InstrWord) (regs : List (RegIdx × Word)) (cells : Memory) (pc last : Word) : State :=
  regs.foldl (fun s p => s.setReg p.1 p.2)
    { State.reset with mem := cells, pc := pc, imem := [(pc.toNat, w)], lastAddr := last }

/-- The state after one step, which is always a next state here. -/
def tick (s : State) : State :=
  match step s with
  | .next t => t
  | .fault _ => s
  | .refused _ => s

/-- What a vector lists after the tick: one register, `pc`, `clock`, `status`. -/
def seen (r : RegIdx) (s : State) : Word × Word × Word × Status := (s.reg r, s.pc, s.clock, s.status)

/-- What a launch is refused with, if it is. -/
def refusal (o : Host.Outcome State Fault Refusal) : Option Refusal :=
  match o with
  | .next _ => none
  | .fault _ => none
  | .refused r => some r

/-- `DMEM_INIT` all zero, as the program vectors take it. -/
def zeros : DmemInit := Vector.replicate 1024 0#8

/-! ### WellFormed: the one check refuses an ill-formed term -/

theorem test_odd_branch_offset_is_ill_formed : (Instr.beq 0 1 2 0b0000000000001#13).wellFormed = false := by decide
theorem test_even_branch_offset_is_well_formed : (Instr.beq 7 1 2 0b1111111111110#13).wellFormed = true := by decide

/-! ### Decoding: one word for every constructor, its fields written out from R82 to R85 and R92 -/

theorem test_decode_add : decode 0b0000000_00110_00101_000_00111_0110011#32 = .ok (.add 7 5 6) := by decide
theorem test_decode_sub : decode 0b0100000_00010_00001_000_00011_0110011#32 = .ok (.sub 3 1 2) := by decide
theorem test_decode_and : decode 0b0000000_00010_00001_111_00011_0110011#32 = .ok (.and 3 1 2) := by decide
theorem test_decode_or : decode 0b0000000_00010_00001_110_00011_0110011#32 = .ok (.or 3 1 2) := by decide
theorem test_decode_sll : decode 0b0100000_00010_00001_001_00011_0110011#32 = .ok (.sll 0b0100000 3 1 2) := by decide
theorem test_decode_addi : decode 0b0000000_01010_00000_000_00101_0010011#32 = .ok (.addi 5 0 10) := by decide
theorem test_decode_addiF7x20 : decode 0b0100000_11111_00110_000_00101_0010011#32 = .ok (.addiF7x20 5 6 31) := by decide
theorem test_decode_andi : decode 0b0000000_01111_00001_111_00011_0010011#32 = .ok (.andi 3 1 15) := by decide
theorem test_decode_ori : decode 0b0000000_10000_00001_110_00011_0010011#32 = .ok (.ori 3 1 16) := by decide
theorem test_decode_slli : decode 0b0000001_11111_00010_001_00010_0010011#32 = .ok (.slli 2 2 0b000000111111) := by decide
theorem test_decode_ld : decode 0b1111111_11000_00001_011_00011_0000011#32 = .ok (.ld 3 3 1 0b111111111000) := by decide
theorem test_decode_sd : decode 0b1111111_00010_00001_011_11000_0100011#32 = .ok (.sd 3 2 1 0b111111111000) := by decide
theorem test_decode_beq : decode 0b1111111_00000_00000_000_11101_1100011#32 = .ok (.beq 0 0 0 0b1111111111100) := by decide
theorem test_decode_beq_bit11 : decode 0b0000000_00000_00000_000_00001_1100011#32 = .ok (.beq 0 0 0 0b0100000000000) := by decide
theorem test_decode_rejects_unsupported : decode 0x0000006F#32 = .error (.unsupportedOpcode 0x0000006F#32) := by
  decide
theorem test_decode_rejects_unresolved : decode 0x022081B3#32 = .error (.unresolvedAluOperation 1 0) := by decide
theorem test_table_word_is_decoded : decodeTableWord 32 0x006283B3 = some (.add 7 5 6) := by decide
theorem test_table_word_is_refused : decodeTableWord 32 0x0020C1B3 = none := by decide

/-! ### Encoding, against the words of S4 to S7, V4, V5 -/

theorem test_encode_arithmetic :
    encode (.add 7 5 6) = 0x006283B3#32 ∧ encode (.sub 3 1 2) = 0x402081B3#32 ∧
    encode (.slli 2 2 63) = 0x03F11113#32 ∧ encode (.addiF7x20 5 6 0) = 0x40030293#32 := by decide
theorem test_encode_memory_and_branch :
    encode (.ld 3 3 1 0xFF8) = 0xFF80B183#32 ∧ encode (.sd 3 2 1 0x800) = 0x8020B023#32 ∧
    encode (.beq 0 0 0 0xFFE) = 0x7E000FE3#32 ∧ encode (.beq 0 0 0 0x1000) = 0x80000063#32 := by decide

/-! ### The blocks: S1, S2, S3, V1, V2 -/

theorem test_control_unit :
    controlUnit 51 = ⟨false, false, true, false, false, false, 2, true⟩ ∧
    controlUnit 3 = ⟨true, true, true, true, false, false, 0, true⟩ ∧
    controlUnit 19 = ⟨true, false, true, false, false, false, 2, true⟩ ∧
    controlUnit 35 = ⟨true, false, false, false, true, false, 0, true⟩ ∧
    controlUnit 99 = ⟨false, false, false, false, false, true, 1, true⟩ ∧
    controlUnit 115 = ⟨false, false, false, false, false, false, 0, false⟩ := by decide
theorem test_immediate_generator :
    immGen 0x7FF30293#32 = 2047 ∧ immGen 0x80030293#32 = 0xFFFFFFFFFFFFF800 ∧
    immGen 0x7E20BFA3#32 = 2047 ∧ immGen 0x8020B023#32 = 0xFFFFFFFFFFFFF800 ∧
    immGen 0x7E000FE3#32 = 4094 ∧ immGen 0x80000063#32 = 0xFFFFFFFFFFFFF000 ∧
    immGen 0x000000E3#32 = 2048 ∧ immGen 0x402081B3#32 = 0 := by decide
theorem test_alu_control_resolved :
    aluControl 0 127 7 = some .add ∧ aluControl 1 127 7 = some .sub ∧ aluControl 2 32 0 = some .sub ∧
    aluControl 2 0 7 = some .and ∧ aluControl 2 0 6 = some .or ∧ aluControl 2 127 1 = some .sll := by decide
theorem test_alu_control_unresolved :
    aluControl 2 1 0 = none ∧ aluControl 2 32 7 = none ∧ aluControl 2 0 4 = none ∧ aluControl 3 0 0 = none := by
  decide
theorem test_alu_source_examples :
    alu .add 5 3 = (8, false) ∧ alu .add 0xFFFFFFFFFFFFFFFD 3 = (0, true) ∧ alu .sub 5 5 = (0, true) ∧
    alu .and 6 3 = (2, false) ∧ alu .sll 1 4 = (16, false) := by decide
theorem test_alu_corners :
    alu .sub 0 1 = (0xFFFFFFFFFFFFFFFF, false) ∧ alu .or 256 0 = (256, false) ∧ alu .sll 1 64 = (1, false) ∧
    alu .sll 1 0xFFFFFFFFFFFFFFC4 = (16, false) ∧ alu .sll 0x8000000000000000 1 = (0, true) := by decide

/-! ### One tick of each instruction: V3 to V6 -/

/-- V3.2: sources are read before the destination is written. -/
theorem test_add :
    seen 5 (tick (machine 0x005282B3 [(5, 21)] [] 0 0)) = (42, 4, 1, .halted) := by decide
/-- V3.4: x0 is written. -/
theorem test_add_to_x0 :
    seen 0 (tick (machine 0x00208033 [(1, 3), (2, 4)] [] 0 0)) = (7, 4, 1, .halted) := by decide
/-- V3.5. -/
theorem test_sub :
    seen 3 (tick (machine 0x402081B3 [(1, 5), (2, 7)] [] 0 0)) = (0xFFFFFFFFFFFFFFFE, 4, 1, .halted) := by decide
/-- V3.7. -/
theorem test_and :
    seen 3 (tick (machine 0x0020F1B3 [(1, 65295), (2, 4080)] [] 0 0)) = (3840, 4, 1, .halted) := by decide
/-- V3.8. -/
theorem test_or :
    seen 3 (tick (machine 0x0020E1B3 [(1, 65280), (2, 4080)] [] 0 0)) = (65520, 4, 1, .halted) := by decide
/-- V3.10: 68 mod 64 = 4. -/
theorem test_sll :
    seen 3 (tick (machine 0x002091B3 [(1, 1), (2, 68)] [] 0 0)) = (16, 4, 1, .halted) := by decide
/-- V3.11. -/
theorem test_sll_ignores_funct7 :
    seen 3 (tick (machine 0x402091B3 [(1, 3), (2, 2)] [] 0 0)) = (12, 4, 1, .halted) := by decide
/-- V3.16: not the last instruction. -/
theorem test_add_runs_on :
    seen 7 (tick (machine 0x006283B3 [(5, 1), (6, 2)] [] 8 16)) = (3, 12, 1, .running) := by decide
/-- V4.2: the largest adding immediate. -/
theorem test_addi :
    seen 5 (tick (machine 0x01F28293 [(5, 1)] [] 0 0)) = (32, 4, 1, .halted) := by decide
/-- V4.12: x0 is read as an ordinary register. -/
theorem test_addi_reads_x0 :
    seen 1 (tick (machine 0x00700093 [(0, 5)] [] 0 0)) = (12, 4, 1, .halted) := by decide
/-- V4.7: 5000 - 1055. -/
theorem test_addiF7x20 :
    seen 5 (tick (machine 0x41F30293 [(6, 5000)] [] 0 0)) = (3945, 4, 1, .halted) := by decide
/-- V4.9: 0 - 1024. -/
theorem test_addiF7x20_wraps :
    seen 5 (tick (machine 0x40030293 [(6, 0)] [] 0 0)) = (0xFFFFFFFFFFFFFC00, 4, 1, .halted) := by decide
/-- V4.13. -/
theorem test_andi :
    seen 3 (tick (machine 0x00F0F193 [(1, 43981)] [] 0 0)) = (13, 4, 1, .halted) := by decide
/-- V4.16. -/
theorem test_ori :
    seen 3 (tick (machine 0x0100E193 [(1, 43776)] [] 0 0)) = (43792, 4, 1, .halted) := by decide
/-- V4.19. -/
theorem test_slli :
    seen 2 (tick (machine 0x03F11113 [(2, 3)] [] 0 0)) = (0x8000000000000000, 4, 1, .halted) := by decide
/-- V4.20: imm = 64 shifts by 0. -/
theorem test_slli_ignores_upper_bits :
    seen 2 (tick (machine 0x04011113 [(2, 3)] [] 0 0)) = (3, 4, 1, .halted) := by decide
/-- V5.14: unaligned, bytes 29 to 36. -/
theorem test_ld :
    seen 3 (tick (machine 0x0000B183 [(1, 29)] [(24, 0x88), (25, 0x77), (26, 0x66), (27, 0x55), (28, 0x44), (29, 0x33), (30, 0x22), (31, 0x11)] 0 0)) = (0x112233, 4, 1, .halted) := by decide
/-- V5.16. -/
theorem test_ld_replaces_its_base :
    seen 1 (tick (machine 0x0000B083 [(1, 40)] [(40, 9)] 0 0)) = (9, 4, 1, .halted) := by decide
/-- V6.6. -/
theorem test_beq_taken_backward :
    seen 0 (tick (machine 0xFE000EE3 [] [] 16 64)) = (0, 12, 1, .running) := by decide
/-- V6.5: bits above 31 matter. -/
theorem test_beq_compares_all_bits :
    seen 2 (tick (machine 0x00208463 [(1, 1), (2, 0x100000001)] [] 0 64)) = (0x100000001, 4, 1, .running) := by decide
/-- V6.7: the wrapped pc exceeds LAST_ADDR. -/
theorem test_beq_wraps_below_zero :
    seen 0 (tick (machine 0xFE000EE3 [] [] 0 64)) = (0, 0xFFFFFFFFFFFFFFFC, 1, .halted) := by decide
/-- V6.17: the terminal check is strict. -/
theorem test_beq_to_last_addr_runs_on :
    seen 1 (tick (machine 0x00208463 [(1, 5), (2, 5)] [] 0 8)) = (5, 8, 1, .running) := by decide
/-- V5.3: a negative offset, bytes 8 to 15 and no other. -/
theorem test_sd :
    (tick (machine 0xFE20BC23 [(1, 16), (2, 0x1122334455667788)] [(7, 1), (16, 2)] 0 0)).mem =
      [(7, 1), (8, 0x88), (9, 0x77), (10, 0x66), (11, 0x55), (12, 0x44), (13, 0x33), (14, 0x22), (15, 0x11),
        (16, 2)] := by decide
/-- R55: a stored zero byte is not listed, so equal memories are equal data. -/
theorem test_sd_of_zero_keeps_the_canonical_form :
    (tick (machine 0x0020B023 [(1, 8), (2, 0xFF)] [(9, 1), (15, 2), (16, 3)] 0 0)).mem = [(8, 0xFF), (16, 3)] := by
  decide

/-! ### Faults: V3 to V7, and what the host may see -/

/-- V7.3: the word `0x00000073`. -/
theorem test_unsupported_opcode_faults :
    seen 1 (tick (machine 0x00000073 [(1, 11)] [] 0 0)) = (11, 0, 0, .faulted (.unsupportedOpcode 0x00000073)) := by decide
/-- V3.14. -/
theorem test_unresolved_rtype_faults :
    seen 3 (tick (machine 0x4020D1B3 [(1, 1), (2, 2)] [] 0 0)) = (0, 0, 0, .faulted (.unresolvedAluOperation 2 32 5)) := by decide
/-- S5: scenario B as the source writes it faults in its first tick. -/
theorem test_addi_100_faults :
    seen 1 (tick (machine 0x06400093 [] [] 0 12)) = (0, 0, 0, .faulted (.unresolvedAluOperation 2 3 0)) := by decide
/-- V5.5: the last byte would be 1024. -/
theorem test_sd_past_the_end_faults :
    seen 1 (tick (machine 0x0020B023 [(1, 1017), (2, 1)] [] 0 0)) = (1017, 0, 0, .faulted (.addressOutOfRange 1017)) := by decide
/-- V5.19: the address is not truncated. -/
theorem test_ld_negative_address_faults :
    seen 3 (tick (machine 0xFF80B183 [(1, 4), (3, 77)] [] 0 0)) = (77, 0, 0, .faulted (.addressOutOfRange 0xFFFFFFFFFFFFFFFC)) := by decide
/-- V7.9: no entry at address 0. -/
theorem test_fetch_miss_faults :
    seen 0 (tick { State.reset with imem := [(4, 0x00000013)], lastAddr := 4 }) =
      (0, 0, 0, .faulted (.instructionFetchFault 0)) := by decide
/-- R250: an ended machine does not move. -/
theorem test_halted_machine_is_frozen :
    let s := tick (machine 0x00000013 [] [] 0 0)
    seen 0 s = (0, 4, 1, .halted) ∧ tick s = s := by decide
/-- R227, R244: what is readable after a halt and after a fault. -/
theorem test_observation :
    (tick (machine 0x0020B023 [(1, 1016), (2, 0x0102030405060708)] [] 0 0)).observeMemory 1020 4 =
      some [0x04, 0x03, 0x02, 0x01] ∧
    (tick (machine 0x0020B023 [(1, 1016)] [] 0 0)).observeMemory 1020 5 = none ∧
    (machine 0x0020B023 [] [] 0 0).observeMemory 0 1 = none ∧
    (tick (machine 0x00000013 [] [] 0 0)).observePc = some 4 ∧ (machine 0x00000013 [] [] 0 0).observePc = none ∧
    (tick (machine 0x00000073 [] [] 0 0)).faultCause = some (.unsupportedOpcode 0x73) := by decide
/-- R244, with the end state of P5: after a fault the state before the faulting tick is readable, `pc` and memory too. -/
theorem test_observation_after_a_fault :
    let s := machine 0x0010BCA3 [(1, 992)] [(1016, 0xE0), (1017, 0x03)] 12 16
    (tick s).faultCause = some (.addressOutOfRange 1017) ∧ (tick s).beforeFault = some s ∧
    (tick s).observePc = some 12 ∧ (tick s).observeMemory 1016 8 = some [0xE0, 0x03, 0, 0, 0, 0, 0, 0] := by decide

/-! ### Launch: V7.12, R242 -/

theorem test_launch_refuses_an_empty_store : refusal (launch [] 0 zeros) = some .emptyInstructionStore := by decide
theorem test_launch_refuses_two_entries_at_one_address :
    refusal (launch [(0, 0x13), (0, 0x33)] 0 zeros) = some .duplicateAddress := by decide
theorem test_launch_refuses_a_wrong_last_addr :
    refusal (launch [(0, 0x13)] 4 zeros) = some .lastAddrNotLargest := by decide
theorem test_launch_refuses_257_entries :
    refusal (launch (standardLayout 0 (List.replicate 257 0x13)) 1024 zeros) = some .tooManyEntries := by
  decide +kernel

/-! ### withFetchWord: the placed word is the next to run, from reset -/

theorem test_placed_word_runs_first :
    seen 5 (tick (State.reset.withFetchWord 32 0x00A00293)) = (10, 4, 1, .halted) := by decide

/-! ### The hypotheses of the statements can be met -/

/-- One word at address 0, as the program `[w]` in the standard layout. -/
def program (w : InstrWord) : State := machine w [] [] 0 0


/-- Whether a step answers a next state. -/
def goesOn (s : State) : Bool :=
  match step s with
  | .next _ => true
  | .fault _ => false
  | .refused _ => false

theorem step_eq_tick {s : State} (h : goesOn s = true) : step s = .next (tick s) := by
  unfold goesOn at h
  unfold tick
  split at h
  · rename_i heq
    rw [heq]
  · cases h
  · cases h

theorem not_failed {s : State} (h : s.faultCause = none) : ¬ s.Failed := by
  rintro ⟨f, hf⟩
  simp [State.faultCause, hf] at h

theorem witness_DecodeOfEncodeIsTheInstruction :
    (Instr.beq 5 31 31 0b1000000000000).wellFormed = true ∧ (Instr.sd 7 31 0 0x800).wellFormed = true := by decide
theorem witness_EncodeOfDecodeIsTheWord : decode 0xFE208CE3 = .ok (.beq 0 1 2 0b1111111111000) := by decide
theorem witness_DecodeFollowsTheOpcodeTable :
    (⟨"sub", 0x40000033, 0xFE00707F⟩ : OpcodeRow) ∈ opcodeTable ∧ (0x402081B3#32 &&& 0xFE00707F#32) = 0x40000033#32 ∧
    ∀ row ∈ opcodeTable, 0x00000073#32 &&& row.mask ≠ row.pattern := by decide
theorem witness_ITypeImmediateIsSignExtended :
    opcodeOf 0x80008183#32 = 3#7 ∧ opcodeOf 0x7FF00093#32 = 19#7 := by decide
theorem witness_STypeImmediateIsSignExtended : opcodeOf 0x8020B023#32 = 35#7 := by decide
theorem witness_SBTypeImmediateIsAnEvenByteOffset :
    opcodeOf 0x80000063#32 = 99#7 ∧
    (machine 0x80000063 [(3, 7)] [] 0 64).reg (rs1Of 0x80000063) =
      (machine 0x80000063 [(3, 7)] [] 0 64).reg (rs2Of 0x80000063) := by decide
theorem witness_OtherOpcodesHaveImmediateZero :
    opcodeOf 0x402081B3#32 ≠ 3#7 ∧ opcodeOf 0x402081B3#32 ≠ 19#7 ∧ opcodeOf 0x402081B3#32 ≠ 35#7 ∧
    opcodeOf 0x402081B3#32 ≠ 99#7 := by decide
theorem witness_UnsupportedOpcodeFaults :
    ¬ supportedOpcode (opcodeOf 0xFFFFFFFF) ∧ (program 0xFFFFFFFF).status = .running ∧
    (program 0xFFFFFFFF).fetch = some 0xFFFFFFFF ∧ (0x00004501#32).extractLsb' 0 2 ≠ 3#2 := by decide
theorem witness_UnresolvedRTypeWordFaults :
    (program 0x4020E1B3).status = .running ∧ (program 0x4020E1B3).fetch = some 0x4020E1B3 ∧
    opcodeOf 0x4020E1B3 = 51#7 ∧ ¬ resolvedPair (funct7Of 0x4020E1B3) (funct3Of 0x4020E1B3) := by decide
theorem witness_UnresolvedITypeWordFaults :
    (program 0x02028293).status = .running ∧ (program 0x02028293).fetch = some 0x02028293 ∧
    opcodeOf 0x02028293 = 19#7 ∧ ¬ resolvedPair ((0x02028293#32).extractLsb' 25 7) (funct3Of 0x02028293) := by decide
theorem witness_AndGivesTheBitwiseAnd :
    (machine 0x0020F1B3 [(1, 6), (2, 3)] [] 0 0).reg 1 = 6#64 ∧
    (machine 0x0020F1B3 [(1, 6), (2, 3)] [] 0 0).reg 2 = 3#64 := by decide
theorem witness_LdLoadsEightBytes :
    (effectiveAddress (machine 0 [(1, 1016)] [] 0 0) 1 0).toNat = 1016 ∧
    (effectiveAddress (machine 0 [(1, 8)] [] 0 0) 1 0xFF8).toNat = 0 := by decide
theorem witness_SdStoresEightBytes :
    (effectiveAddress (machine 0 [(1, 1017)] [] 0 0) 1 (0b1111111#7 ++ 0b11111#5)).toNat = 1016 ∧
    (effectiveAddress (machine 0 [] [] 0 0) 1 (0b0000000#7 ++ 0b00000#5)).toNat = 0 := by decide
theorem witness_AccessPastTheEndFaults :
    (effectiveAddress (machine 0 [(1, 1016)] [] 0 0) 1 1).toNat = 1017 ∧
    (effectiveAddress State.reset 1 0xFFF).toNat = 2 ^ 64 - 1 := by decide
theorem witness_StoreThenLoadReturnsTheStoredValue :
    (effectiveAddress (machine 0 [(1, 1013), (2, 0x1122334455667788)] [] 0 0) 1 3).toNat = 1016 := by decide
theorem witness_OverlappingLoadSeesTheStoredBytes :
    (effectiveAddress (machine 0 [(1, 16)] [] 0 0) 1 1).toNat =
      (effectiveAddress (machine 0 [(1, 16)] [] 0 0) 1 0).toNat + 1 ∧
    (effectiveAddress (machine 0 [(1, 1009)] [] 0 0) 1 7).toNat =
      (effectiveAddress (machine 0 [(1, 1009)] [] 0 0) 1 0).toNat + 7 ∧
    (effectiveAddress (machine 0 [(1, 1009)] [] 0 0) 1 7).toNat = 1016 := by decide
theorem witness_OnlySdWritesAndOnlyLdReadsDataMemory :
    (∃ t, isStore (.ld 3 1 0 0) = false ∧ exec (.ld 3 1 0 0) State.reset = .next t) ∧
    (∃ t, isLoad (.add 7 5 6) = false ∧ isStore (.add 7 5 6) = false ∧ exec (.add 7 5 6) State.reset = .next t) ∧
    (∃ t, exec (.sd 3 2 1 0x3F8) State.reset = .next t) ∧ (∃ t, exec (.sd 3 2 1 0x3F9) State.reset = .next t) ∧
    (∃ m', memWrite [(1015, 1), (1023, 2)] 1016 7 = some m') ∧ memWrite [(1015, 1)] 1017 7 = none ∧
    (tick (program 0x00000013)).status = .halted ∧ 1020 + 4 ≤ 1024 :=
  ⟨⟨_, rfl, rfl⟩, ⟨_, rfl, rfl, rfl⟩, ⟨_, rfl⟩, ⟨_, rfl⟩, ⟨_, rfl⟩, rfl, by decide, by decide⟩
/-- A store that faults at 1017, a halt, and a machine that runs on; ranges up to the last byte. -/
theorem witness_HostReadsTheEndOfARun :
    let s := machine 0x0020B023 [(1, 1017), (2, 1)] [(1023, 5)] 0 0
    (s.status = .running ∧ step s = .next (tick s) ∧ (tick s).status = .faulted (.addressOutOfRange 1017)) ∧
    (tick (program 0x00000013)).status = .halted ∧ (program 0x00000013).status = .running ∧ 1023 + 1 ≤ 1024 :=
  ⟨⟨by decide, step_eq_tick (by decide), by decide⟩, by decide, by decide, by decide⟩
theorem witness_BeqBranchesOnEquality :
    (machine 0 [(1, 5), (2, 5)] [] 0 0).reg 1 = (machine 0 [(1, 5), (2, 5)] [] 0 0).reg 2 ∧
    (machine 0 [(1, 5), (2, 6)] [] 0 0).reg 1 ≠ (machine 0 [(1, 5), (2, 6)] [] 0 0).reg 2 := by decide
theorem witness_BackwardBranchPastZeroHalts :
    State.reset.reg 0 = State.reset.reg 0 ∧ (State.reset.pc.toNat : Int) + (0b1111111111110#13).toInt < 0 ∧
    State.reset.lastAddr.toNat < 2 ^ 63 := by decide
theorem witness_PcStaysAlignedButForBranchesBy2Mod4 :
    (program 0x00000363).status = .running ∧ (program 0x00000363).fetch = some 0x00000363 ∧
    step (program 0x00000363) = .next (tick (program 0x00000363)) ∧ (program 0x00000363).pc.toNat % 4 = 0 ∧
    (tick (program 0x00000363)).pc.toNat % 4 ≠ 0 := ⟨by decide, by decide, step_eq_tick (by decide), by decide, by decide⟩
/-- The state of the follow-up of V6.9, before its second tick. -/
def misaligned : State :=
  { State.reset with imem := [(0, 0x00000363), (4, 0x13), (8, 0x13)], lastAddr := 8, pc := 6, clock := 1 }
theorem witness_MisalignedFetchFaults :
    misaligned.status = .running ∧ (∀ e ∈ misaligned.imem, e.1 % 4 = 0) ∧ misaligned.pc.toNat % 4 ≠ 0 := by decide
theorem witness_StepRunsTheDecodedInstruction :
    (program 0x006283B3).status = .running ∧
    (program 0x006283B3).imem.wordAt (program 0x006283B3).pc.toNat = some 0x006283B3 ∧
    decode 0x006283B3 = .ok (.add 7 5 6) := by decide
theorem witness_PlacedWordIsTheNextInstruction : (Instr.beq 0 1 2 0b1111111111110).wellFormed = true := by decide
theorem witness_FetchMissFaults :
    misaligned.status = .running ∧ ∀ e ∈ misaligned.imem, e.1 ≠ misaligned.pc.toNat := by decide
theorem witness_FaultingTickChangesOnlyStatus :
    (program 0x022081B3).status = .running ∧ step (program 0x022081B3) = .next (tick (program 0x022081B3)) ∧
    (tick (program 0x022081B3)).status = .faulted (.unresolvedAluOperation 2 1 0) := ⟨by decide, step_eq_tick (by decide), by decide⟩
/-- Both ends of a completed tick: `pc = LAST_ADDR` runs on, one instruction further halts. -/
theorem witness_CompletedTickEnds :
    let s := machine 0x00000013 [] [] 0 4
    let u := machine 0x00000013 [] [] 4 4
    s.status = .running ∧ step s = .next (tick s) ∧ ¬ (tick s).Failed ∧ (tick s).status = .running ∧
    u.status = .running ∧ step u = .next (tick u) ∧ ¬ (tick u).Failed ∧ (tick u).status = .halted :=
  ⟨by decide, step_eq_tick (by decide), not_failed (by decide), by decide, by decide, step_eq_tick (by decide), not_failed (by decide), by decide⟩
theorem witness_NextPcFollowsTheBranchRule :
    let s := program 0x00108463
    let u := machine 0x00208463 [(1, 5), (2, 6)] [] 0 64
    (s.status = .running ∧ s.fetch = some 0x00108463 ∧ step s = .next (tick s) ∧ ¬ (tick s).Failed ∧
      opcodeOf 0x00108463 = 99#7 ∧ s.reg (rs1Of 0x00108463) = s.reg (rs2Of 0x00108463)) ∧
    (u.status = .running ∧ u.fetch = some 0x00208463 ∧ step u = .next (tick u) ∧ ¬ (tick u).Failed ∧
      ¬ (opcodeOf 0x00208463 = 99#7 ∧ u.reg (rs1Of 0x00208463) = u.reg (rs2Of 0x00208463))) :=
  ⟨⟨by decide, by decide, step_eq_tick (by decide), not_failed (by decide), by decide, by decide⟩,
    ⟨by decide, by decide, step_eq_tick (by decide), not_failed (by decide), by decide⟩⟩
/-- Each of the four faults is raised by some tick. -/
theorem witness_FaultsAreRaisedExactlyAsListed :
    (step misaligned = .next (tick misaligned) ∧ (tick misaligned).status = .faulted (.instructionFetchFault 6)) ∧
    (tick (program 0xFFFFFFFF)).status = .faulted (.unsupportedOpcode 0xFFFFFFFF) ∧
    (tick (program 0x0020A1B3)).status = .faulted (.unresolvedAluOperation 2 0 2) ∧
    (tick (machine 0x0000B183 [(1, 1017)] [] 0 0)).status = .faulted (.addressOutOfRange 1017) :=
  ⟨⟨step_eq_tick (by decide), by decide⟩, by decide, by decide, by decide⟩
theorem witness_EndedMachineIsFrozen :
    (tick (program 0x00000013)).status ≠ .running ∧ (tick (program 0x00000073)).status ≠ .running := by decide
theorem witness_FaultedRunNeverHalts : (tick (program 0x00000073)).Failed :=
  ⟨.unsupportedOpcode 0x73, by decide⟩
theorem witness_OnlyRdChangesAndOnlyForThreeOpcodes :
    (program 0x00500013).status = .running ∧ (program 0x00500013).fetch = some 0x00500013 ∧
    step (program 0x00500013) = .next (tick (program 0x00500013)) ∧
    (tick (program 0x00500013)).reg 0 ≠ (program 0x00500013).reg 0 := ⟨by decide, by decide, step_eq_tick (by decide), by decide⟩
theorem witness_RegisterZeroIsOrdinary :
    (∃ t, exec (.add 5 0 0) State.reset = .next t) ∧ destination (.sd 3 0 0 0) ≠ some 0 ∧
    ∃ t, exec (.sd 3 0 0 0) State.reset = .next t := ⟨⟨_, rfl⟩, by decide, ⟨_, rfl⟩⟩
theorem witness_InstructionStoreIsImmutableAndNotData :
    step (program 0x00500013) = .next (tick (program 0x00500013)) ∧ ∃ t, exec (.ld 3 1 0 0) State.reset = .next t :=
  ⟨step_eq_tick (by decide), ⟨_, rfl⟩⟩
/-- Immediates at both ends of each range: 31, 32, 1023, 1024, 1055, 1056, 4095. -/
theorem witness_AddiWordByItsImmediate :
    (program (31#12 ++ 6#5 ++ 0b000#3 ++ 5#5 ++ 0b0010011#7)).status = .running ∧
    (program (31#12 ++ 6#5 ++ 0b000#3 ++ 5#5 ++ 0b0010011#7)).fetch =
      some (31#12 ++ 6#5 ++ 0b000#3 ++ 5#5 ++ 0b0010011#7) ∧
    (31#12).toNat ≤ 31 ∧ 1024 ≤ (1024#12).toNat ∧ (1055#12).toNat ≤ 1055 ∧
    (31 < (32#12).toNat ∧ (1023#12).toNat < 1024) ∧ 1055 < (1056#12).toNat ∧ 1055 < (4095#12).toNat := by decide
theorem test_addi_word_at_the_ends_of_its_ranges :
    (tick (machine (31#12 ++ 6#5 ++ 0b000#3 ++ 5#5 ++ 0b0010011#7) [(6, 2000)] [] 0 0)).reg 5 = 2031 ∧
    (tick (machine (1055#12 ++ 6#5 ++ 0b000#3 ++ 5#5 ++ 0b0010011#7) [(6, 2000)] [] 0 0)).reg 5 = 945 ∧
    (tick (program (32#12 ++ 6#5 ++ 0b000#3 ++ 5#5 ++ 0b0010011#7))).status =
      .faulted (.unresolvedAluOperation 2 1 0) ∧
    (tick (program (1056#12 ++ 6#5 ++ 0b000#3 ++ 5#5 ++ 0b0010011#7))).status =
      .faulted (.unresolvedAluOperation 2 33 0) := by decide

/-! Launched machines. -/

theorem ofEntries_of_one (a : Word) (w : InstrWord) : InstrStore.ofEntries [(a, w)] = [(a.toNat, w)] := rfl

/-- The machine launched with the one word `w` at `a`. -/
def launched (a : Word) (w : InstrWord) : State :=
  applyReset zeros { State.reset with imem := [(a.toNat, w)], lastAddr := a }

theorem launch_of_one (a : Word) (w : InstrWord) : launch [(a, w)] a zeros = .next (launched a w) := by
  simp [launch, distinctAddresses, isLargestAddress, launched, ofEntries_of_one]

theorem witness_LaunchLoadsTheProgramIntoTheResetState :
    launch [(0, 0x00500013)] 0 zeros = .next (launched 0 0x00500013) := launch_of_one 0 _
theorem witness_FirstFetchIsAtAddressZero :
    launch [(4, 0x00000013)] 4 zeros = .next (launched 4 0x00000013) ∧
    ∀ e ∈ [((4 : Word), (0x00000013 : InstrWord))], e.1 ≠ 0#64 := ⟨launch_of_one 4 _, by simp⟩
/-- A state in mid-run: bytes listed, a store at `pc`, the program ahead. -/
theorem witness_EveryStepKeepsTheInvariant :
    let s := machine 0x00103023 [(1, 0xFF)] [(3, 7), (9, 1)] 8 64
    s.Inv ∧ step s = .next (tick s) :=
  ⟨⟨by decide, by decide, by decide, by decide, by decide, by decide⟩, step_eq_tick (by decide +kernel)⟩

theorem run_of_fixed {s : State} (h : step s = .next s) (k : Nat) : Host.Core.run Sys2Proof.core k s = .next s := by
  induction k with
  | zero => rfl
  | succ k ih =>
    simp only [Host.Core.run, Sys2Proof.core, h] at ih ⊢
    exact ih

/-- The smallest instance of S8: one `addi x0,x0,0`, which never faults. -/
theorem witness_StraightLineProgramHaltsAfterNTicks :
    launch (standardLayout 0#64 [0x00000013]) 0 zeros = .next (launched 0 0x00000013) ∧
    (∀ w ∈ [(0x00000013 : InstrWord)], opcodeOf w ≠ 99#7) ∧ SafeRun (launched 0 0x00000013) := by
  refine ⟨launch_of_one 0 _, by simpa using (by decide : opcodeOf 0x00000013 ≠ 99#7), ?_⟩
  have h1 : step (launched 0 0x00000013) = .next (tick (launched 0 0x00000013)) :=
    step_eq_tick (by decide +kernel)
  have h2 : step (tick (launched 0 0x00000013)) = .next (tick (launched 0 0x00000013)) :=
    step_of_ended (by decide)
  intro k t h
  cases k with
  | zero =>
    cases h
    exact not_failed rfl
  | succ k =>
    have h' : Host.Core.run Sys2Proof.core k (tick (launched 0 0x00000013)) = .next t := by
      simpa only [RunsTo, Host.Core.run, Sys2Proof.core, h1] using h
    rw [run_of_fixed h2] at h'
    cases h'
    exact not_failed rfl

end Sys2Proof.Tests
end

namespace Sys2Proof.Machine

/-! The step is total: no instruction and no state is left without a next state (00_scope.md R8). -/

/-- An address out of range is a next state too, with status Faulted (log entry 6). -/
theorem exec_eq_next (i : Instr) (s : State) : ∃ t, exec i s = .next t := by
  obtain ⟨r, v, p, hreg⟩ | ⟨p, hbranch⟩ | ⟨m, p, hstore, -⟩ | ⟨a, -, hfault⟩ := exec_cases i s
  · exact ⟨_, hreg⟩
  · exact ⟨_, hbranch⟩
  · exact ⟨_, hstore⟩
  · exact ⟨_, hfault⟩

/-- An ended machine answers itself (R250), a running one the faulted state of fetch and decode or what the fetched
instruction answers. -/
theorem step_eq_next (s : State) : ∃ t, step s = .next t := by
  by_cases hrun : s.status = .running
  · obtain ⟨f, -, hfault⟩ | ⟨w, i, -, -, hexec⟩ := step_cases hrun
    · exact ⟨_, hfault⟩
    · rw [hexec]
      exact exec_eq_next i s
  · exact ⟨s, step_of_ended hrun⟩

/-- Settles O36: a next state exists by `step_eq_next`; it is the only one because `step` is a function. -/
theorem everyStateHasExactlyOneNextState : Obligations.EveryStateHasExactlyOneNextState := by
  intro s
  obtain ⟨t, ht⟩ := step_eq_next s
  refine ⟨t, ht, fun u hu => ?_⟩
  rw [ht] at hu
  cases hu
  rfl

end Sys2Proof.Machine

namespace Sys2Proof.Machine

/-! What an instruction writes: one register, or data memory, or neither (10_state.md R24, R35, R36). -/

theorem isStore_iff (i : Instr) : isStore i = true ↔ ∃ f3 rs2 rs1 imm, i = .sd f3 rs2 rs1 imm := by
  constructor
  · intro h
    cases i with
    | sd f3 rs2 rs1 imm => exact ⟨f3, rs2, rs1, imm, rfl⟩
    | _ => cases h
  · rintro ⟨f3, rs2, rs1, imm, rfl⟩
    rfl

/-- `exec_cases` with the instruction in each case: the register written is the instruction's destination, and only `sd`
completes with a store, inside 0 to 1023. -/
theorem exec_cases_by_destination (i : Instr) (s : State) :
    (∃ rd v, destination i = some rd ∧ exec i s = .next ((s.setReg rd v).advance (nextInLine s))) ∨
    (∃ p, exec i s = .next (s.advance p)) ∨
    (∃ a v, isStore i = true ∧ a ≤ 1016 ∧
      exec i s = .next ((s.setMem (s.mem.store8 a v)).advance (nextInLine s))) ∨
    (∃ f, exec i s = .next (s.fail f)) := by
  cases i with
  | add | sub | and | or | sll | addi | addiF7x20 | andi | ori | slli => exact .inl ⟨_, _, rfl, rfl⟩
  | ld f3 rd rs1 imm =>
    by_cases hr : (effectiveAddress s rs1 imm).toNat ≤ 1016
    · exact .inl ⟨rd, _, rfl, execLd_of_inRange f3 rd rs1 imm hr⟩
    · exact .inr (.inr (.inr ⟨_, execLd_of_outOfRange f3 rd rs1 imm (by omega)⟩))
  | sd f3 rs2 rs1 imm =>
    by_cases hr : (effectiveAddress s rs1 imm).toNat ≤ 1016
    · exact .inr (.inr (.inl ⟨_, _, rfl, hr, execSd_of_inRange f3 rs2 rs1 imm hr⟩))
    · exact .inr (.inr (.inr ⟨_, execSd_of_outOfRange f3 rs2 rs1 imm (by omega)⟩))
  | beq f3 rs1 rs2 offset => exact .inr (.inl ⟨_, execBeq_eq f3 rs1 rs2 offset s⟩)

section frame

variable {i : Instr} {s t : State}

/-- R24: a register other than the destination keeps its value. -/
theorem exec_reg_of_ne_destination {r : RegIdx} (hd : destination i ≠ some r) (h : exec i s = .next t) :
    t.reg r = s.reg r := by
  obtain ⟨rd, v, hrd, he⟩ | ⟨p, he⟩ | ⟨a, v, -, -, he⟩ | ⟨f, he⟩ := exec_cases_by_destination i s <;>
    cases he.symm.trans h
  · have hne : r ≠ rd := fun e => hd (e ▸ hrd)
    simp [hne]
  · rfl
  · rfl
  · rfl

/-- R35: only `sd` writes data memory. -/
theorem exec_mem_of_not_store (hi : isStore i = false) (h : exec i s = .next t) : t.mem = s.mem := by
  obtain ⟨rd, v, -, he⟩ | ⟨p, he⟩ | ⟨a, v, hst, -, he⟩ | ⟨f, he⟩ := exec_cases_by_destination i s
  · cases he.symm.trans h
    rfl
  · cases he.symm.trans h
    rfl
  · simp [hi] at hst
  · cases he.symm.trans h
    rfl

/-- R35: no instruction reaches a byte outside `DMEM[0..1023]`. -/
theorem exec_readByte_above {a : Nat} (h : exec i s = .next t) (ha : 1024 ≤ a) :
    t.mem.readByte a = s.mem.readByte a := by
  obtain ⟨rd, v, -, he⟩ | ⟨p, he⟩ | ⟨b, v, -, hb, he⟩ | ⟨f, he⟩ := exec_cases_by_destination i s <;>
    cases he.symm.trans h
  · rfl
  · rfl
  · have hout : ¬(b ≤ a ∧ a < b + 8) := by omega
    simp [Memory.readByte_store8, hout]
  · rfl

/-- R36: no instruction writes the instruction store or LAST_ADDR. -/
theorem exec_programSame (h : exec i s = .next t) : ProgramSame s t := by
  obtain ⟨r, v, p, he⟩ | ⟨p, he⟩ | ⟨m, p, he, -⟩ | ⟨a, -, he⟩ := exec_cases i s <;>
    cases he.symm.trans h <;> exact ⟨rfl, rfl⟩

theorem step_programSame (h : step s = .next t) : ProgramSame s t := by
  by_cases hrun : s.status = .running
  · obtain ⟨f, -, hfault⟩ | ⟨w, i, -, -, hexec⟩ := step_cases hrun
    · cases hfault.symm.trans h
      exact ⟨rfl, rfl⟩
    · exact exec_programSame (hexec.symm.trans h)
  · cases (step_of_ended hrun).symm.trans h
    exact ⟨rfl, rfl⟩

/-! What an instruction does not read. The effective address and the branch condition come from registers and the
instruction alone, so the same case of the access holds on the changed state. -/

/-- R35: an instruction that is neither `ld` nor `sd` does the same on every data memory. -/
theorem exec_with_mem (m : Memory) (hl : isLoad i = false) (hs : isStore i = false) (h : exec i s = .next t) :
    exec i { s with mem := m } = .next { t with mem := m } := by
  cases i with
  | add | sub | and | or | sll | addi | addiF7x20 | andi | ori | slli | beq =>
    cases h
    rfl
  | ld => cases hl
  | sd => cases hs

/-- `sd` on another data memory stores the same bytes at the same address, or faults alike (R55, R57). -/
theorem exec_sd_with_mem {f3 : BitVec 3} {rs2 rs1 : RegIdx} {imm : BitVec 12} (m : Memory)
    (h : exec (.sd f3 rs2 rs1 imm) s = .next t) :
    exec (.sd f3 rs2 rs1 imm) { s with mem := m } =
      .next { t with mem := (memWrite m (effectiveAddress s rs1 imm) (s.reg rs2)).getD m } := by
  by_cases hr : (effectiveAddress s rs1 imm).toNat ≤ 1016
  · cases (execSd_of_inRange f3 rs2 rs1 imm hr).symm.trans h
    rw [memWrite_of_inRange hr]
    exact execSd_of_inRange (s := { s with mem := m }) f3 rs2 rs1 imm hr
  · have hout : 1016 < (effectiveAddress s rs1 imm).toNat := by omega
    cases (execSd_of_outOfRange f3 rs2 rs1 imm hout).symm.trans h
    rw [memWrite_of_outOfRange hout]
    exact execSd_of_outOfRange (s := { s with mem := m }) f3 rs2 rs1 imm hout

/-- R36: no instruction reads the instruction store as data. -/
theorem exec_with_imem (p : InstrStore) (h : exec i s = .next t) :
    exec i { s with imem := p } = .next { t with imem := p } := by
  cases i with
  | add | sub | and | or | sll | addi | addiF7x20 | andi | ori | slli | beq =>
    cases h
    rfl
  | ld f3 rd rs1 imm =>
    by_cases hr : (effectiveAddress s rs1 imm).toNat ≤ 1016
    · cases (execLd_of_inRange f3 rd rs1 imm hr).symm.trans h
      exact execLd_of_inRange (s := { s with imem := p }) f3 rd rs1 imm hr
    · have hout : 1016 < (effectiveAddress s rs1 imm).toNat := by omega
      cases (execLd_of_outOfRange f3 rd rs1 imm hout).symm.trans h
      exact execLd_of_outOfRange (s := { s with imem := p }) f3 rd rs1 imm hout
  | sd f3 rs2 rs1 imm =>
    by_cases hr : (effectiveAddress s rs1 imm).toNat ≤ 1016
    · cases (execSd_of_inRange f3 rs2 rs1 imm hr).symm.trans h
      exact execSd_of_inRange (s := { s with imem := p }) f3 rs2 rs1 imm hr
    · have hout : 1016 < (effectiveAddress s rs1 imm).toNat := by omega
      cases (execSd_of_outOfRange f3 rs2 rs1 imm hout).symm.trans h
      exact execSd_of_outOfRange (s := { s with imem := p }) f3 rs2 rs1 imm hout

end frame

/-- Settles O28: the frame of data memory, its independence for every instruction but `ld`, the bytes of a store, and
the dump of a halted machine. -/
theorem onlySdWritesAndOnlyLdReadsDataMemory : Obligations.OnlySdWritesAndOnlyLdReadsDataMemory := by
  refine ⟨fun _ _ _ => exec_mem_of_not_store, fun _ _ _ _ => exec_readByte_above,
    fun _ _ _ m => exec_with_mem m, isStore_iff, fun _ _ _ _ _ _ m => exec_sd_with_mem m,
    fun _ _ _ _ => readByte_memWrite, fun _ _ _ => memWrite_eq_none_iff, fun s a n hhalt hn => ?_⟩
  exact State.observeMemory_of_ended (by simp [hhalt]) hn

/-- Settles O45: every end of a tick leaves the program alone, and no meaning looks at it. -/
theorem instructionStoreIsImmutableAndNotData : Obligations.InstructionStoreIsImmutableAndNotData :=
  ⟨fun _ _ => step_programSame, fun _ _ _ p => exec_with_imem p⟩

/-- Settles O44: the register laws hold at index 0 as at any other, and `destination` decides who writes it. -/
theorem registerZeroIsOrdinary : Obligations.RegisterZeroIsOrdinary := by
  refine ⟨fun s v => s.setReg_reg_self 0 v, fun rs1 imm s => ⟨_, rfl, ?_⟩, fun rd s t h => ?_,
    fun _ _ _ => exec_reg_of_ne_destination, State.reset_reg 0⟩
  · simp [aluResult, immOperand_zero]
  · cases h
    simp [aluResult]

end Sys2Proof.Machine

namespace Sys2Proof.Machine

/-! The immediates as signed numbers (30_encoding.md R86 to R90). Every immediate field begins with word bit 31, so only
its topmost piece is read as signed; `BitVec.toInt_append` adds the pieces below it as they stand. -/

@[simp] theorem toInt_sext12 (imm : BitVec 12) : (sext12 imm).toInt = imm.toInt :=
  BitVec.toInt_signExtend_of_le (by decide)

@[simp] theorem toInt_sext13 (offset : BitVec 13) : (sext13 offset).toInt = offset.toInt :=
  BitVec.toInt_signExtend_of_le (by decide)

/-- The `n` bits of a word from bit `k` upwards, as a number. -/
theorem toNat_wordBits (w : InstrWord) (k n : Nat) : (w.extractLsb' k n).toNat = w.toNat / 2 ^ k % 2 ^ n := by
  rw [BitVec.extractLsb'_toNat, Nat.shiftRight_eq_div_pow]

/-- The top `n` bits of a word, read as signed: word bit 31 is their sign. -/
theorem toInt_topBits (w : InstrWord) {k n : Nat} (hn : 0 < n) (hk : k + n = 32) :
    (w.extractLsb' k n).toInt = (w.toNat / 2 ^ k : Nat) - if w.getLsbD 31 then 2 ^ n else 0 := by
  have hsign : (w.extractLsb' k n).msb = w.getLsbD 31 := by
    have hpos : k + (n - 1) = 31 := by omega
    have hlast : n - 1 < n := by omega
    rw [BitVec.msb_eq_getLsbD_last, BitVec.getLsbD_extractLsb', hpos]
    simp [hlast]
  have hfits : w.toNat / 2 ^ k < 2 ^ n := by
    apply Nat.div_lt_of_lt_mul
    rw [← Nat.pow_add, hk]
    exact w.isLt
  rw [BitVec.toInt_eq_msb_cond, hsign, toNat_wordBits, Nat.mod_eq_of_lt hfits]
  split <;> simp

/-- The one-bit field at the top of an SB-type word weighs -1. -/
theorem toInt_signBit (w : InstrWord) : (w.extractLsb' 31 1).toInt = if w.getLsbD 31 then -1 else 0 := by
  have hbit : w.getLsbD 31 = decide (w.toNat / 2 ^ 31 % 2 = 1) := Nat.testBit_eq_decide_div_mod_eq
  have hlt := w.isLt
  rw [toInt_topBits w (by decide) (by decide), hbit]
  by_cases h : w.toNat / 2 ^ 31 % 2 = 1
  · rw [decide_eq_true h, if_pos rfl, if_pos rfl]
    omega
  · rw [decide_eq_false h, if_neg Bool.false_ne_true, if_neg Bool.false_ne_true]
    omega

theorem toInt_immFieldI (w : InstrWord) :
    (immFieldI w).toInt = (w.toNat / 2 ^ 20 : Nat) - if w.getLsbD 31 then 4096 else 0 :=
  toInt_topBits w (k := 20) (n := 12) (by decide) (by decide)

theorem toInt_immFieldS (w : InstrWord) :
    (immFieldS w).toInt =
      (32 * (w.toNat / 2 ^ 25) + w.toNat / 2 ^ 7 % 32 : Nat) - if w.getLsbD 31 then 4096 else 0 := by
  rw [immFieldS, BitVec.toInt_append, if_neg (by decide), toInt_topBits w (by decide) (by decide), toNat_wordBits]
  split <;> omega

theorem toInt_immFieldSB (w : InstrWord) :
    (immFieldSB w).toInt =
      (2048 * (w.toNat / 2 ^ 7 % 2) + 32 * (w.toNat / 2 ^ 25 % 64) + 2 * (w.toNat / 2 ^ 8 % 16) : Nat) -
        if w.getLsbD 31 then 4096 else 0 := by
  rw [immFieldSB]
  iterate 4 rw [BitVec.toInt_append, if_neg (by decide)]
  simp only [toInt_signBit, toNat_wordBits, BitVec.toNat_ofNat]
  split <;> omega

/-! Which immediate a word has, by its opcode (R87 to R90). -/

theorem immGen_iType {w : InstrWord} (h : opcodeOf w = 3#7 ∨ opcodeOf w = 19#7) : immGen w = sext12 (immFieldI w) := by
  obtain h | h := h <;> simp [immGen, h]

theorem immGen_sType {w : InstrWord} (h : opcodeOf w = 35#7) : immGen w = sext12 (immFieldS w) := by
  simp [immGen, h]

theorem immGen_sbType {w : InstrWord} (h : opcodeOf w = 99#7) : immGen w = sext13 (immFieldSB w) := by
  simp [immGen, h]

/-- Settles O5: `toInt_immFieldI` gives the value, the 12 bits of the field give its range. -/
theorem iTypeImmediateIsSignExtended : Obligations.ITypeImmediateIsSignExtended := by
  refine ⟨fun w hop => ?_, by decide⟩
  have hmin := (immFieldI w).le_toInt
  have hmax := (immFieldI w).toInt_lt
  rw [immGen_iType hop, toInt_sext12]
  exact ⟨toInt_immFieldI w, by omega, by omega⟩

/-- Settles O6: `toInt_immFieldS` gives the value, the 12 bits of the field give its range. -/
theorem sTypeImmediateIsSignExtended : Obligations.STypeImmediateIsSignExtended := by
  refine ⟨fun w hop => ?_, by decide⟩
  have hmin := (immFieldS w).le_toInt
  have hmax := (immFieldS w).toInt_lt
  rw [immGen_sType hop, toInt_sext12]
  exact ⟨toInt_immFieldS w, by omega, by omega⟩

/-- Settles O8: an opcode without an immediate format fails every test of the immediate generator. -/
theorem otherOpcodesHaveImmediateZero : Obligations.OtherOpcodesHaveImmediateZero := by
  intro w hld himm hsd hbeq
  simp [immGen, hld, himm, hsd, hbeq]

/-! A branch on equal operands (45_branch.md R200; D3, D7). -/

theorem decode_branch {w : InstrWord} (h : opcodeOf w = 99#7) :
    decode w = .ok (.beq (funct3Of w) (rs1Of w) (rs2Of w) (immFieldSB w)) := by
  simp [decode, h]

/-- On equal operands `beq` completes with its offset added to `pc`, no further shift. -/
theorem exec_beq_of_eq (f3 : BitVec 3) {rs1 rs2 : RegIdx} (offset : BitVec 13) {s : State}
    (heq : s.reg rs1 = s.reg rs2) : exec (.beq f3 rs1 rs2 offset) s = .next (s.advance (s.pc + sext13 offset)) := by
  rw [exec, execBeq_eq, if_pos heq]

/-- Settles O7: the range and the evenness follow from the value that `toInt_immFieldSB` gives, the target from
`exec_beq_of_eq`. -/
theorem sbTypeImmediateIsAnEvenByteOffset : Obligations.SBTypeImmediateIsAnEvenByteOffset := by
  refine ⟨fun w hop => ?_, by decide, by decide⟩
  have hvalue := toInt_immFieldSB w
  rw [immGen_sbType hop, toInt_sext13]
  refine ⟨hvalue, ?_, ?_, ?_, fun s heq => ⟨_, _, decode_branch hop, exec_beq_of_eq _ _ heq, rfl⟩⟩
  all_goals split at hvalue <;> omega

/-! Opcodes outside the opcode map (R91, R94). -/

theorem decode_unsupported {w : InstrWord} (h : ¬ supportedOpcode (opcodeOf w)) :
    decode w = .error (.unsupportedOpcode w) := by
  simp only [supportedOpcode, not_or] at h
  simp [decode, h]

theorem controlUnit_unsupported {op : BitVec 7} (h : ¬ supportedOpcode op) :
    controlUnit op = ⟨false, false, false, false, false, false, 0#2, false⟩ := by
  simp only [supportedOpcode, not_or] at h
  simp [controlUnit, h]

/-- A running machine whose fetched word the decoder rejects raises the decoder's fault and nothing else (R152, R217). -/
theorem step_of_decode_error {s : State} {w : InstrWord} {e : DecodeError} (hrun : s.status = .running)
    (hfetch : s.fetch = some w) (he : decode w = .error e) : step s = .next (s.fail (decodeFault e)) := by
  have hdecode : fetchDecode s = .error (decodeFault e) := by simp only [fetchDecode, hfetch, he]
  rw [step_of_running hrun, hdecode]
  rfl

/-- Every supported opcode ends in 11, so a word that ends otherwise has none of them. -/
theorem lowBits_of_supported {w : InstrWord} (h : supportedOpcode (opcodeOf w)) : w.extractLsb' 0 2 = 3#2 := by
  have hlow : w.extractLsb' 0 2 = (opcodeOf w).extractLsb' 0 2 := by
    rw [opcodeOf, extract_extract w (by decide)]
  rw [hlow]
  obtain hop | hop | hop | hop | hop := h <;> rw [hop] <;> rfl

/-- Settles O9: the decoder and the control unit reject the word by the same test, and the tick raises the decoder's
fault. -/
theorem unsupportedOpcodeFaults : Obligations.UnsupportedOpcodeFaults := by
  refine ⟨fun w hop => ?_, fun w hlow hop => hlow (lowBits_of_supported hop), by decide, rfl, rfl, rfl⟩
  have hdecode := decode_unsupported hop
  exact ⟨hdecode, controlUnit_unsupported hop, fun s hrun hfetch => step_of_decode_error hrun hfetch hdecode⟩

end Sys2Proof.Machine

namespace Sys2Proof.Machine

/-! The zero flag and the branch multiplexer (40_blocks.md R130, R133). -/

theorem zeroFlag_iff_bits (result : Word) :
    zeroFlag result = true ↔ ∀ k, k < 64 → result.getLsbD k = false := by
  rw [zeroFlag, beq_iff_eq, BitVec.eq_of_getLsbD_eq_iff]
  simp only [BitVec.getLsbD_zero]

/-- With `Branch = 0` the AND in front of the multiplexer hides the zero flag. -/
@[simp] theorem nextPc_of_no_branch (s : State) (zero : Bool) (imm : Word) :
    nextPc s false zero imm = nextInLine s := by
  simp [nextPc]

/-- Settles O46: the ALU's flag is `zeroFlag` of its result whatever the operation, and `pc + 4` is the next instruction
in line. -/
theorem zeroFlagIsResultEqualsZero : Obligations.ZeroFlagIsResultEqualsZero :=
  ⟨fun op a b => zeroFlag_iff_bits (aluResult op a b), nextPc_of_no_branch⟩

end Sys2Proof.Machine

namespace Sys2Proof.Machine

/-! Opcode-51 words (42_rtype.md R170 to R176). -/

theorem decode_rType {w : InstrWord} (h : opcodeOf w = 51#7) : decode w = decodeRType w := by
  rw [decode, if_pos h]

/-- The R-type decoder rejects a pair without an operation and reports the pair (R176). -/
theorem decodeRType_unresolved {w : InstrWord} (h : ¬ resolvedPair (funct7Of w) (funct3Of w)) :
    decodeRType w = .error (.unresolvedAluOperation (funct7Of w) (funct3Of w)) := by
  have hrow : ∀ {f7 f3}, resolvedPair f7 f3 → ¬(funct3Of w = f3 ∧ funct7Of w = f7) := by
    rintro f7 f3 hpair ⟨h3, h7⟩
    exact h (h7 ▸ h3 ▸ hpair)
  have hshift : funct3Of w ≠ 1#3 := fun h3 => h (by simp [resolvedPair, h3])
  rw [decodeRType, if_neg hshift, if_neg (hrow (by decide)), if_neg (hrow (by decide)), if_neg (hrow (by decide)),
    if_neg (hrow (by decide))]

/-- The pairs without an operation, listed by funct3 (R176, R186). -/
theorem not_resolvedPair_iff (f7 : BitVec 7) (f3 : BitVec 3) :
    ¬ resolvedPair f7 f3 ↔
      (f3 = 2#3 ∨ f3 = 3#3 ∨ f3 = 4#3 ∨ f3 = 5#3) ∨ (f3 = 0#3 ∧ f7 ≠ 0#7 ∧ f7 ≠ 32#7) ∨
        ((f3 = 6#3 ∨ f3 = 7#3) ∧ f7 ≠ 0#7) := by
  have hf3 : f3 = 0#3 ∨ f3 = 1#3 ∨ f3 = 2#3 ∨ f3 = 3#3 ∨ f3 = 4#3 ∨ f3 = 5#3 ∨ f3 = 6#3 ∨ f3 = 7#3 := by
    revert f3
    decide
  obtain rfl | rfl | rfl | rfl | rfl | rfl | rfl | rfl := hf3 <;> simp [resolvedPair]

/-- Settles O10: the decoder rejects the word with the fault of R176, and the tick raises that fault. -/
theorem unresolvedRTypeWordFaults : Obligations.UnresolvedRTypeWordFaults := by
  refine ⟨fun s w hrun hfetch hop hpair => ?_, not_resolvedPair_iff, ?_⟩
  · exact step_of_decode_error hrun hfetch ((decode_rType hop).trans (decodeRType_unresolved hpair))
  · simp only [List.forall_mem_cons]
    exact ⟨by decide, by decide, by decide, by decide, by decide, by decide, nofun⟩

/-- The word of R173's pattern. -/
theorem decode_andWord (rd rs1 rs2 : RegIdx) : decode (layout 0#7 rs2 rs1 7#3 rd 51#7) = .ok (.and rd rs1 rs2) := by
  rw [decode_rType (opcodeOf_layout ..)]
  simp [decodeRType]

theorem exec_and (rd rs1 rs2 : RegIdx) (s : State) :
    exec (.and rd rs1 rs2) s = .next ((s.setReg rd (s.reg rs1 &&& s.reg rs2)).advance (nextInLine s)) := rfl

/-- Steps 6 to 8 of a tick raise no fault. -/
theorem State.advance_not_failed {s : State} (p : Word) (h : ¬ s.Failed) : ¬ (s.advance p).Failed := by
  rintro ⟨f, hf⟩
  rw [State.advance_status] at hf
  split at hf
  · cases hf
  · exact h ⟨f, hf⟩

/-- Settles O14: `exec_and` names the next state, and the register and field lemmas of its updates give the result and
the frame. -/
theorem andGivesTheBitwiseAnd : Obligations.AndGivesTheBitwiseAnd := by
  refine ⟨fun rd rs1 rs2 => ⟨decode_andWord rd rs1 rs2, fun s => ⟨_, exec_and rd rs1 rs2 s, fun k => ?bit,
    fun r hne => ?others, fun _ => rfl, ⟨rfl, rfl⟩, ?copy, State.advance_not_failed _⟩⟩, by decide, by decide,
    fun s h1 h2 => ⟨_, exec_and 3 1 2 s, ?sixAndThree⟩⟩
  case bit => simp
  case others => simp [hne]
  case copy =>
    rintro rfl
    simp
  case sixAndThree =>
    rw [State.advance_reg, State.setReg_reg_self, h1, h2]
    rfl

end Sys2Proof.Machine

namespace Sys2Proof.Machine

/-! Opcode-19 words (43_itype.md R180 to R186). -/

theorem decode_arithmeticIType {w : InstrWord} (h : opcodeOf w = 19#7) : decode w = decodeIType w := by
  simp [decode, h]

/-- The I-type decoder goes through the same rows of (funct7, funct3) as the R-type decoder, so the two reject the same
words and report the same pair (R92). -/
theorem decodeIType_error_iff (w : InstrWord) (e : DecodeError) :
    decodeIType w = .error e ↔ decodeRType w = .error e := by
  simp only [decodeIType, decodeRType]
  split_ifs <;> simp

/-- The I-type decoder rejects a pair without an operation and reports the pair (R186). -/
theorem decodeIType_unresolved {w : InstrWord} (h : ¬ resolvedPair (funct7Of w) (funct3Of w)) :
    decodeIType w = .error (.unresolvedAluOperation (funct7Of w) (funct3Of w)) :=
  (decodeIType_error_iff w _).mpr (decodeRType_unresolved h)

/-- An immediate 0 to 31 is added as it stands (R181). -/
theorem exec_addi (rd rs1 : RegIdx) (imm : BitVec 5) (s : State) :
    exec (.addi rd rs1 imm) s =
      .next ((s.setReg rd (s.reg rs1 + imm.setWidth 64)).advance (nextInLine s)) := by
  rw [exec, execAddi, aluTick_eq, immOperand_zero, aluResult]

/-- An immediate 1024 to 1055 is subtracted, its bit 10 included (R183). -/
theorem exec_addiF7x20 (rd rs1 : RegIdx) (imm : BitVec 5) (s : State) :
    exec (.addiF7x20 rd rs1 imm) s =
      .next ((s.setReg rd (s.reg rs1 - (1024#64 + imm.setWidth 64))).advance (nextInLine s)) := by
  rw [exec, execAddiF7x20, aluTick_eq, immOperand_32, aluResult]

/-- Settles O11: the decoder rejects the word with the fault of R186, and the tick raises that fault; the boundary words
decode to the two forms whose next states `exec_addi` and `exec_addiF7x20` name. -/
theorem unresolvedITypeWordFaults : Obligations.UnresolvedITypeWordFaults := by
  refine ⟨fun s w hrun hfetch hop hpair => ?fault, not_resolvedPair_iff, ?examples, by decide, by decide, by decide,
    by decide, fun s => ⟨⟨_, exec_addi 5 5 31 s, ?adds⟩, ⟨_, exec_addiF7x20 5 6 31 s, ?subtracts⟩⟩⟩
  case fault =>
    exact step_of_decode_error hrun hfetch ((decode_arithmeticIType hop).trans (decodeIType_unresolved hpair))
  case examples =>
    simp only [List.forall_mem_cons]
    exact ⟨by decide, by decide, by decide, nofun⟩
  case adds => simp
  case subtracts => simp

end Sys2Proof.Machine

namespace Sys2Proof

/-! The encoder and the decoder (30_encoding.md R81 to R96). -/

open Sys2Proof.Machine (decode_rType decode_arithmeticIType decode_branch)

theorem decode_load {w : InstrWord} (h : opcodeOf w = 3#7) :
    decode w = .ok (.ld (funct3Of w) (rdOf w) (rs1Of w) (immFieldI w)) := by
  simp [decode, h]

theorem decode_store {w : InstrWord} (h : opcodeOf w = 35#7) :
    decode w = .ok (.sd (funct3Of w) (rs2Of w) (rs1Of w) (immFieldS w)) := by
  simp [decode, h]

section fields

variable (f7 : BitVec 7) (rs2 rs1 : RegIdx) (f3 : BitVec 3) (rd : RegIdx) (op : BitVec 7)

@[simp] theorem immFieldI_layout : immFieldI (layout f7 rs2 rs1 f3 rd op) = f7 ++ rs2 := by
  rw [immFieldI_eq, funct7Of_layout, rs2Of_layout]

@[simp] theorem immFieldS_layout : immFieldS (layout f7 rs2 rs1 f3 rd op) = f7 ++ rd := by
  rw [immFieldS_eq, funct7Of_layout, rdOf_layout]

/-- imm[4:0] of an opcode-19 word stands where R-type words have rs2 (R83). -/
@[simp] theorem imm5_layout : (layout f7 rs2 rs1 f3 rd op).extractLsb' 20 5 = rs2 :=
  rs2Of_layout f7 rs2 rs1 f3 rd op

end fields

/-- A word whose fields are known is the word of those fields. -/
theorem layout_eq_of_fields {f7 : BitVec 7} {f3 : BitVec 3} {op : BitVec 7} {w : InstrWord} (h7 : funct7Of w = f7)
    (h3 : funct3Of w = f3) (hop : opcodeOf w = op) :
    layout f7 (rs2Of w) (rs1Of w) f3 (rdOf w) op = w := by
  rw [← h7, ← h3, ← hop, layout_of_fields]

/-- The six fields of every instruction's word. -/
theorem encode_fields (i : Instr) : Laws.EncodedFields.Statement i := by
  cases i with
  | add => exact Laws.EncodedFields.add ..
  | sub => exact Laws.EncodedFields.sub ..
  | and => exact Laws.EncodedFields.and ..
  | or => exact Laws.EncodedFields.or ..
  | sll => exact Laws.EncodedFields.sll ..
  | addi => exact Laws.EncodedFields.addi ..
  | addiF7x20 => exact Laws.EncodedFields.addiF7x20 ..
  | andi => exact Laws.EncodedFields.andi ..
  | ori => exact Laws.EncodedFields.ori ..
  | slli => exact Laws.EncodedFields.slli ..
  | ld => exact Laws.EncodedFields.ld ..
  | sd => exact Laws.EncodedFields.sd ..
  | beq => exact Laws.EncodedFields.beq ..

theorem decode_encode {i : Instr} (h : i.wellFormed = true) : decode (encode i) = .ok i := by
  have hfields := encode_fields i
  cases i with simp only [Laws.EncodedFields.Statement] at hfields
  | add | sub | and | or | sll =>
    rw [hfields, decode_rType (opcodeOf_layout ..)]
    simp [decodeRType]
  | addi | addiF7x20 | andi | ori | slli =>
    rw [hfields, decode_arithmeticIType (opcodeOf_layout ..)]
    simp [decodeIType, append_extract12]
  | ld =>
    rw [hfields, decode_load (opcodeOf_layout ..)]
    simp [append_extract12]
  | sd =>
    rw [hfields, decode_store (opcodeOf_layout ..)]
    simp [append_extract12]
  | beq f3 rs1 rs2 offset =>
    have heven : offset.getLsbD 0 = false := by simpa [Instr.wellFormed] using h
    rw [hfields, decode_branch (opcodeOf_layout ..), immFieldSB_eq, funct7Of_layout, rdOf_layout,
      offset_of_pieces offset heven]
    simp

/-- Settles O2: each format's fields are read back from the word (`encode_fields`), an even branch offset from its
pieces. -/
theorem decodeOfEncodeIsTheInstruction : Obligations.DecodeOfEncodeIsTheInstruction :=
  fun _ => decode_encode

/-- Whatever row a word decodes to, the row's fixed fields and the instruction's operands are all of its bits. -/
theorem encode_of_decode {w : InstrWord} {i : Instr} (h : decode w = .ok i) : encode i = w := by
  obtain ⟨hop, hr⟩ | ⟨hop, hi⟩ | ⟨hop, rfl⟩ | ⟨hop, rfl⟩ | ⟨hop, rfl⟩ := decode_ok h
  · obtain ⟨h3, rfl⟩ | ⟨h3, h7, rfl⟩ | ⟨h3, h7, rfl⟩ | ⟨h3, h7, rfl⟩ | ⟨h3, h7, rfl⟩ := decodeRType_ok hr
    · exact (wordR_eq ..).trans (layout_eq_of_fields rfl h3 hop)
    all_goals exact (wordR_eq ..).trans (layout_eq_of_fields h7 h3 hop)
  · obtain ⟨h3, rfl⟩ | ⟨h3, h7, rfl⟩ | ⟨h3, h7, rfl⟩ | ⟨h3, h7, rfl⟩ | ⟨h3, h7, rfl⟩ := decodeIType_ok hi
    · rw [encode, immFieldI_eq]
      exact (wordI_append_eq ..).trans (layout_eq_of_fields rfl h3 hop)
    all_goals exact (wordI_append_eq ..).trans (layout_eq_of_fields h7 h3 hop)
  · rw [encode, immFieldI_eq]
    exact (wordI_append_eq ..).trans (layout_eq_of_fields rfl rfl hop)
  · rw [encode, immFieldS_eq, wordS_eq, extract_append_high, extract_append_low]
    exact layout_eq_of_fields rfl rfl hop
  · rw [encode, wordSB_eq, immFieldSB_high, immFieldSB_low]
    exact layout_eq_of_fields rfl rfl hop

/-- Only a branch offset could be ill formed, and an assembled one is even. -/
theorem wellFormed_of_decode {w : InstrWord} {i : Instr} (h : decode w = .ok i) : i.wellFormed = true := by
  cases i with
  | add | sub | and | or | sll | addi | addiF7x20 | andi | ori | slli | ld | sd => rfl
  | beq f3 rs1 rs2 offset =>
    obtain ⟨-, hr⟩ | ⟨-, hi⟩ | ⟨-, hld⟩ | ⟨-, hsd⟩ | ⟨-, hbeq⟩ := decode_ok h
    · simpa using decodeRType_ok hr
    · simpa using decodeIType_ok hi
    · cases hld
    · cases hsd
    · cases hbeq
      simpa [Instr.wellFormed] using immFieldSB_even w

/-- Settles O3: the fields of the word are kept as the row or as operands (`encode_of_decode`). -/
theorem encodeOfDecodeIsTheWord : Obligations.EncodeOfDecodeIsTheWord :=
  fun _ _ h => ⟨encode_of_decode h, wellFormed_of_decode h⟩

end Sys2Proof

namespace Sys2Proof

open Sys2Proof.Machine

/-! Which words decode (R91, R92, R94 to R96). -/

theorem decodeRType_resolved {w : InstrWord} (h : resolvedPair (funct7Of w) (funct3Of w)) :
    ∃ i, decodeRType w = .ok i := by
  obtain ⟨h7, h3⟩ | ⟨h7, h3⟩ | ⟨h7, h3⟩ | ⟨h7, h3⟩ | h3 := h <;> simp [decodeRType, *]

theorem decodeIType_resolved {w : InstrWord} (h : resolvedPair (funct7Of w) (funct3Of w)) :
    ∃ i, decodeIType w = .ok i := by
  obtain ⟨i, hi⟩ := decodeRType_resolved h
  cases hd : decodeIType w with
  | ok j => exact ⟨j, rfl⟩
  | error e => cases hi.symm.trans ((decodeIType_error_iff w e).mp hd)

/-- A word that the decoder accepts: a supported opcode, under opcodes 51 and 19 with a pair that has an operation. -/
theorem decode_resolved {w : InstrWord} (hop : supportedOpcode (opcodeOf w))
    (hpair : opcodeOf w = 51#7 ∨ opcodeOf w = 19#7 → resolvedPair (funct7Of w) (funct3Of w)) :
    ∃ i, decode w = .ok i := by
  obtain h | h | h | h | h := hop
  · exact ⟨_, decode_load h⟩
  · rw [decode_arithmeticIType h]
    exact decodeIType_resolved (hpair (.inr h))
  · exact ⟨_, decode_store h⟩
  · rw [decode_rType h]
    exact decodeRType_resolved (hpair (.inl h))
  · exact ⟨_, decode_branch h⟩

/-! The rows of the opcode table by the fields they fix (R92, R93). -/

/-- A row that fixes opcode, funct3 and funct7. -/
def fullRow (mnemonic : String) (f7 : BitVec 7) (f3 : BitVec 3) (op : BitVec 7) : OpcodeRow :=
  ⟨mnemonic, layout f7 0#5 0#5 f3 0#5 op, layout 127#7 0#5 0#5 7#3 0#5 127#7⟩

/-- A row that fixes opcode and funct3. -/
def funct3Row (mnemonic : String) (f3 : BitVec 3) (op : BitVec 7) : OpcodeRow :=
  ⟨mnemonic, layout 0#7 0#5 0#5 f3 0#5 op, layout 0#7 0#5 0#5 7#3 0#5 127#7⟩

/-- A row that fixes the opcode alone. -/
def opcodeRow (mnemonic : String) (op : BitVec 7) : OpcodeRow :=
  ⟨mnemonic, layout 0#7 0#5 0#5 0#3 0#5 op, layout 0#7 0#5 0#5 0#3 0#5 127#7⟩

theorem opcodeTable_eq :
    opcodeTable =
      [fullRow "add" 0#7 0#3 51#7, fullRow "sub" 32#7 0#3 51#7, fullRow "and" 0#7 7#3 51#7,
        fullRow "or" 0#7 6#3 51#7, funct3Row "sll" 1#3 51#7, fullRow "addi" 0#7 0#3 19#7,
        fullRow "addi.f7_0x20" 32#7 0#3 19#7, fullRow "andi" 0#7 7#3 19#7, fullRow "ori" 0#7 6#3 19#7,
        funct3Row "slli" 1#3 19#7, opcodeRow "ld" 3#7, opcodeRow "sd" 35#7, opcodeRow "beq" 99#7] := by
  decide

@[simp] theorem mnemonic_fullRow (m : String) (f7 : BitVec 7) (f3 : BitVec 3) (op : BitVec 7) :
    (fullRow m f7 f3 op).mnemonic = m := rfl
@[simp] theorem mnemonic_funct3Row (m : String) (f3 : BitVec 3) (op : BitVec 7) : (funct3Row m f3 op).mnemonic = m := rfl
@[simp] theorem mnemonic_opcodeRow (m : String) (op : BitVec 7) : (opcodeRow m op).mnemonic = m := rfl

/-- Masking a word is masking its six fields. -/
theorem and_layout (w : InstrWord) (f7 : BitVec 7) (rs2 rs1 : RegIdx) (f3 : BitVec 3) (rd : RegIdx) (op : BitVec 7) :
    w &&& layout f7 rs2 rs1 f3 rd op =
      layout (funct7Of w &&& f7) (rs2Of w &&& rs2) (rs1Of w &&& rs1) (funct3Of w &&& f3) (rdOf w &&& rd)
        (opcodeOf w &&& op) := by
  conv_lhs => rw [← layout_of_fields w]
  apply BitVec.eq_of_getLsbD_eq
  intro i hi
  simp only [layout, BitVec.getLsbD_and, BitVec.getLsbD_append]
  repeat' split
  all_goals rfl

theorem layout_inj {f7 f7' : BitVec 7} {rs2 rs2' rs1 rs1' : RegIdx} {f3 f3' : BitVec 3} {rd rd' : RegIdx}
    {op op' : BitVec 7} :
    layout f7 rs2 rs1 f3 rd op = layout f7' rs2' rs1' f3' rd' op' ↔
      f7 = f7' ∧ rs2 = rs2' ∧ rs1 = rs1' ∧ f3 = f3' ∧ rd = rd' ∧ op = op' := by
  constructor
  · intro h
    exact ⟨by simpa using congrArg funct7Of h, by simpa using congrArg rs2Of h, by simpa using congrArg rs1Of h,
      by simpa using congrArg funct3Of h, by simpa using congrArg rdOf h, by simpa using congrArg opcodeOf h⟩
  · rintro ⟨rfl, rfl, rfl, rfl, rfl, rfl⟩
    rfl

theorem and_127 (x : BitVec 7) : x &&& 127#7 = x := BitVec.and_allOnes
theorem and_7 (x : BitVec 3) : x &&& 7#3 = x := BitVec.and_allOnes

@[simp] theorem matches_fullRow (w : InstrWord) (m : String) (f7 : BitVec 7) (f3 : BitVec 3) (op : BitVec 7) :
    w &&& (fullRow m f7 f3 op).mask = (fullRow m f7 f3 op).pattern ↔
      funct7Of w = f7 ∧ funct3Of w = f3 ∧ opcodeOf w = op := by
  simp [fullRow, and_layout, layout_inj, and_127, and_7]

@[simp] theorem matches_funct3Row (w : InstrWord) (m : String) (f3 : BitVec 3) (op : BitVec 7) :
    w &&& (funct3Row m f3 op).mask = (funct3Row m f3 op).pattern ↔ funct3Of w = f3 ∧ opcodeOf w = op := by
  simp [funct3Row, and_layout, layout_inj, and_127, and_7]

@[simp] theorem matches_opcodeRow (w : InstrWord) (m : String) (op : BitVec 7) :
    w &&& (opcodeRow m op).mask = (opcodeRow m op).pattern ↔ opcodeOf w = op := by
  simp [opcodeRow, and_layout, layout_inj, and_127]

/-- The word of an instruction matches the row of its mnemonic and no other. -/
theorem encode_matches_iff (i : Instr) :
    ∀ row ∈ opcodeTable, encode i &&& row.mask = row.pattern ↔ row.mnemonic = i.mnemonic := by
  have hfields := encode_fields i
  rw [opcodeTable_eq]
  cases i <;>
    simp only [Laws.EncodedFields.Statement] at hfields <;>
    simp [hfields, Instr.mnemonic]

/-- A word that matches a row decodes. -/
theorem decode_of_matches (w : InstrWord) :
    ∀ row ∈ opcodeTable, w &&& row.mask = row.pattern → ∃ i, decode w = .ok i := by
  intro row hrow hmatch
  apply decode_resolved
  all_goals
    revert row
    rw [opcodeTable_eq]
    simp +contextual [supportedOpcode, resolvedPair]

/-- Every instruction has its row. -/
theorem mnemonic_mem_opcodeTable (i : Instr) : ∃ row ∈ opcodeTable, row.mnemonic = i.mnemonic := by
  cases i <;> simp [opcodeTable, Instr.mnemonic]

/-- Settles O4: a word that matches a row decodes, and what it decodes to is encoded back to it, so the row is its own
(`encode_matches_iff`). -/
theorem decodeFollowsTheOpcodeTable : Obligations.DecodeFollowsTheOpcodeTable := by
  refine ⟨fun w row hrow => ⟨fun hmatch => ?_, ?_⟩, fun w hnone => ?_⟩
  · obtain ⟨i, hi⟩ := decode_of_matches w row hrow hmatch
    rw [← encode_of_decode hi, encode_matches_iff i row hrow] at hmatch
    exact ⟨i, hi, hmatch.symm⟩
  · rintro ⟨i, hi, hmnemonic⟩
    rw [← encode_of_decode hi, encode_matches_iff i row hrow, hmnemonic]
  · cases hd : decode w with
    | error e => exact ⟨e, rfl⟩
    | ok i =>
      obtain ⟨row, hrow, hmnemonic⟩ := mnemonic_mem_opcodeTable i
      have hmatch := (encode_matches_iff i row hrow).mpr hmnemonic
      rw [encode_of_decode hd] at hmatch
      exact absurd hmatch (hnone row hrow)

/-- Settles O1: the decoder evaluates on the nine words. -/
theorem workedExampleWordsDecode : Obligations.WorkedExampleWordsDecode :=
  ⟨rfl, rfl, rfl, rfl, rfl, rfl, rfl, rfl, rfl⟩

end Sys2Proof

namespace Sys2Proof.Machine

/-! The frames of a completed tick (41_tick.md R155 to R158). -/

theorem tickEnds_advance (s : State) (p : Word) : TickEnds p s (s.advance p) :=
  ⟨rfl, rfl, by simp [BitVec.lt_def]⟩

theorem registerTick_writeBack (rd : RegIdx) (v : Word) (s : State) :
    RegisterTick rd s ((s.setReg rd v).advance (nextInLine s)) :=
  ⟨fun r hne => by simp [hne], fun _ => rfl, ⟨rfl, rfl⟩, tickEnds_advance (s.setReg rd v) (nextInLine s)⟩

/-! The arithmetic instructions as equations (42_rtype.md R171 to R175, 43_itype.md R182, R184, R185). -/

theorem exec_add (rd rs1 rs2 : RegIdx) (s : State) :
    exec (.add rd rs1 rs2) s = .next ((s.setReg rd (s.reg rs1 + s.reg rs2)).advance (nextInLine s)) := rfl

theorem exec_sub (rd rs1 rs2 : RegIdx) (s : State) :
    exec (.sub rd rs1 rs2) s = .next ((s.setReg rd (s.reg rs1 - s.reg rs2)).advance (nextInLine s)) := rfl

theorem exec_or (rd rs1 rs2 : RegIdx) (s : State) :
    exec (.or rd rs1 rs2) s = .next ((s.setReg rd (s.reg rs1 ||| s.reg rs2)).advance (nextInLine s)) := rfl

theorem exec_sll (f7 : BitVec 7) (rd rs1 rs2 : RegIdx) (s : State) :
    exec (.sll f7 rd rs1 rs2) s =
      .next ((s.setReg rd (s.reg rs1 <<< ((s.reg rs2).toNat % 64))).advance (nextInLine s)) := by
  rw [exec, execSll, aluTick_eq, aluResult, shiftDistance_eq]

theorem exec_andi (rd rs1 : RegIdx) (imm : BitVec 5) (s : State) :
    exec (.andi rd rs1 imm) s =
      .next ((s.setReg rd (s.reg rs1 &&& imm.setWidth 64)).advance (nextInLine s)) := by
  rw [exec, execAndi, aluTick_eq, immOperand_zero, aluResult]

theorem exec_ori (rd rs1 : RegIdx) (imm : BitVec 5) (s : State) :
    exec (.ori rd rs1 imm) s =
      .next ((s.setReg rd (s.reg rs1 ||| imm.setWidth 64)).advance (nextInLine s)) := by
  rw [exec, execOri, aluTick_eq, immOperand_zero, aluResult]

/-- The shift distance of `slli` is the low 6 bits of its immediate: sign extension leaves them alone. -/
theorem shiftDistance_sext12 (high shamt : BitVec 6) : shiftDistance (sext12 (high ++ shamt)) = shamt.toNat := by
  have hlow : (sext12 (high ++ shamt)).extractLsb' 0 6 = shamt := by
    apply BitVec.eq_of_getLsbD_eq
    intro i hi
    have h12 : i < 12 := by omega
    have h64 : i < 64 := by omega
    simp only [sext12, BitVec.getLsbD_extractLsb', BitVec.getLsbD_signExtend, BitVec.getLsbD_append]
    simp [hi, h12, h64]
  rw [shiftDistance, hlow]

theorem exec_slli (high shamt : BitVec 6) (rd rs1 : RegIdx) (s : State) :
    exec (.slli rd rs1 (high ++ shamt)) s =
      .next ((s.setReg rd (s.reg rs1 <<< shamt.toNat)).advance (nextInLine s)) := by
  rw [exec, execSlli, aluTick_eq, aluResult, shiftDistance_sext12]

/-! The results as numbers and as bits (40_blocks.md R125 to R131). -/

theorem toNat_sub_mod (a b : Word) : (a - b).toNat = (2 ^ 64 + a.toNat - b.toNat) % 2 ^ 64 := by
  have := b.isLt
  rw [BitVec.toNat_sub]
  congr 1
  omega

theorem toNat_shl (a : Word) (n : Nat) : (a <<< n).toNat = a.toNat * 2 ^ n % 2 ^ 64 := by
  rw [BitVec.toNat_shiftLeft, Nat.shiftLeft_eq]

/-- A zero-extended 5-bit immediate has the bits of the immediate and no others. -/
theorem getLsbD_imm5 (imm : BitVec 5) (k : Nat) : (imm.setWidth 64).getLsbD k = imm.getLsbD k := by
  rw [BitVec.getLsbD_setWidth]
  by_cases hk : k < 64
  · simp [hk]
  · rw [BitVec.getLsbD_of_ge imm k (by omega), Bool.and_false]

/-- Settles O12: `exec_add` names the next state, `registerTick_writeBack` its frame. -/
theorem addGivesTheSum : Obligations.AddGivesTheSum := by
  refine fun rd rs1 rs2 => ⟨decode_encode (i := .add rd rs1 rs2) rfl, fun s =>
    ⟨_, exec_add rd rs1 rs2 s, ?_, registerTick_writeBack ..⟩⟩
  rw [State.advance_reg, State.setReg_reg_self, BitVec.toNat_add]

/-- Settles O13: `exec_sub` names the next state, `registerTick_writeBack` its frame. -/
theorem subGivesTheDifference : Obligations.SubGivesTheDifference := by
  refine fun rd rs1 rs2 => ⟨decode_encode (i := .sub rd rs1 rs2) rfl, fun s =>
    ⟨_, exec_sub rd rs1 rs2 s, ?_, registerTick_writeBack ..⟩⟩
  rw [State.advance_reg, State.setReg_reg_self, toNat_sub_mod]

/-- Settles O15: `exec_or` names the next state, `registerTick_writeBack` its frame. -/
theorem orGivesTheBitwiseOr : Obligations.OrGivesTheBitwiseOr := by
  refine fun rd rs1 rs2 => ⟨decode_encode (i := .or rd rs1 rs2) rfl, fun s =>
    ⟨_, exec_or rd rs1 rs2 s, fun k => ?_, registerTick_writeBack ..⟩⟩
  rw [State.advance_reg, State.setReg_reg_self, BitVec.getLsbD_or]

/-- Settles O16: `exec_sll` names the next state, in which the distance is already modulo 64. -/
theorem sllShiftsByTheLowSixBits : Obligations.SllShiftsByTheLowSixBits := by
  refine fun f7 rd rs1 rs2 => ⟨decode_encode (i := .sll f7 rd rs1 rs2) rfl, fun s =>
    ⟨_, exec_sll f7 rd rs1 rs2 s, ?_, registerTick_writeBack ..⟩⟩
  rw [State.advance_reg, State.setReg_reg_self, toNat_shl]

/-- Settles O17: `exec_addi` names the next state, in which the immediate is zero-extended. -/
theorem addiAddsAnImmediateBelow32 : Obligations.AddiAddsAnImmediateBelow32 := by
  refine fun rd rs1 imm => ⟨decode_encode (i := .addi rd rs1 imm) rfl, fun s =>
    ⟨_, exec_addi rd rs1 imm s, ?_, registerTick_writeBack ..⟩⟩
  rw [State.advance_reg, State.setReg_reg_self, BitVec.toNat_add, BitVec.toNat_setWidth_of_le (by decide)]

/-- The operand of the subtracting `addi` word as a number. -/
theorem toNat_subtracted (imm : BitVec 5) : (1024#64 + imm.setWidth 64).toNat = 1024 + imm.toNat := by
  have := imm.isLt
  rw [BitVec.toNat_add, BitVec.toNat_setWidth_of_le (by decide), BitVec.toNat_ofNat]
  omega

/-- Settles O18: `exec_addiF7x20` names the next state, in which 1024 + imm[4:0] is subtracted. -/
theorem addiWithBit10Subtracts : Obligations.AddiWithBit10Subtracts := by
  refine fun rd rs1 imm => ⟨decode_encode (i := .addiF7x20 rd rs1 imm) rfl, fun s =>
    ⟨_, exec_addiF7x20 rd rs1 imm s, ?_, registerTick_writeBack ..⟩⟩
  rw [State.advance_reg, State.setReg_reg_self, toNat_sub_mod, toNat_subtracted]

/-- Settles O19: `exec_andi` names the next state; the result is at most the immediate, so it is below 32. -/
theorem andiMasksWithAnImmediateBelow32 : Obligations.AndiMasksWithAnImmediateBelow32 := by
  refine fun rd rs1 imm => ⟨decode_encode (i := .andi rd rs1 imm) rfl, fun s =>
    ⟨_, exec_andi rd rs1 imm s, fun k => ?bits, ?small, registerTick_writeBack ..⟩⟩
  case bits => rw [State.advance_reg, State.setReg_reg_self, BitVec.getLsbD_and, getLsbD_imm5]
  case small =>
    rw [State.advance_reg, State.setReg_reg_self, BitVec.toNat_and, BitVec.toNat_setWidth_of_le (by decide)]
    exact Nat.lt_of_le_of_lt Nat.and_le_right imm.isLt

/-- Settles O20: `exec_ori` names the next state, in which the immediate is zero-extended. -/
theorem oriSetsTheImmediatesBits : Obligations.OriSetsTheImmediatesBits := by
  refine fun rd rs1 imm => ⟨decode_encode (i := .ori rd rs1 imm) rfl, fun s =>
    ⟨_, exec_ori rd rs1 imm s, fun k => ?_, registerTick_writeBack ..⟩⟩
  rw [State.advance_reg, State.setReg_reg_self, BitVec.getLsbD_or, getLsbD_imm5]

/-- Settles O21: `exec_slli` names the next state, whose distance does not depend on the upper 6 bits. -/
theorem slliShiftsByTheLowSixBits : Obligations.SlliShiftsByTheLowSixBits := by
  refine fun high shamt rd rs1 => ⟨decode_encode (i := .slli rd rs1 (high ++ shamt)) rfl, fun s =>
    ⟨_, exec_slli high shamt rd rs1 s, ?_, registerTick_writeBack ..⟩⟩
  rw [State.advance_reg, State.setReg_reg_self, toNat_shl]

end Sys2Proof.Machine

namespace Sys2Proof.Machine

/-! Load and store (44_load_store.md R190 to R193). -/

/-- Settles O22: a sign-extended offset is added as its signed value. -/
theorem effectiveAddressIsBasePlusOffset : Obligations.EffectiveAddressIsBasePlusOffset :=
  fun s rs1 imm => add_signExtend_toNat (by decide) (s.reg rs1) imm

/-- Settles O23: byte `k` of the loaded value is the byte at address + `k` (`byteOf_load8`). -/
theorem ldLoadsEightBytes : Obligations.LdLoadsEightBytes := by
  refine fun f3 rd rs1 imm => ⟨decode_encode (i := .ld f3 rd rs1 imm) rfl, fun s hr =>
    ⟨_, execLd_of_inRange f3 rd rs1 imm hr, fun k hk => ?_, registerTick_writeBack ..⟩⟩
  rw [State.advance_reg, State.setReg_reg_self]
  exact byteOf_load8 s.mem _ k hk

/-- The S-type word of the two pieces of an immediate (R84). -/
theorem decode_storeWord (f3 : BitVec 3) (rs2 rs1 : RegIdx) (high : BitVec 7) (low : BitVec 5) :
    decode (layout high rs2 rs1 f3 low 35#7) = .ok (.sd f3 rs2 rs1 (high ++ low)) := by
  rw [decode_store (opcodeOf_layout ..)]
  simp

/-- Settles O24: `Memory.readByte_store8` tells the eight bytes from all others. -/
theorem sdStoresEightBytes : Obligations.SdStoresEightBytes := by
  rintro f3 rs2 rs1 high low
  refine ⟨decode_storeWord f3 rs2 rs1 high low, ?_⟩
  rintro s _ rfl hr
  refine ⟨_, execSd_of_inRange f3 rs2 rs1 _ hr, fun k hk => ?stored, fun b hb => ?others, fun _ => rfl, ⟨rfl, rfl⟩,
    tickEnds_advance (s.setMem _) (nextInLine s)⟩
  case stored =>
    rw [State.advance_mem, State.setMem_mem, Memory.readByte_store8, if_pos (by omega), Nat.add_sub_cancel_left, byteOf]
  case others =>
    rw [State.advance_mem, State.setMem_mem, Memory.readByte_store8, if_neg (by omega)]

/-- Settles O25: the range check fails before anything is read or written. -/
theorem accessPastTheEndFaults : Obligations.AccessPastTheEndFaults :=
  fun f3 r rs1 imm _ hr => ⟨execLd_of_outOfRange f3 r rs1 imm hr, execSd_of_outOfRange f3 r rs1 imm hr⟩

/-- A store and then a load, both in range, the load at the address it has after the store: no register changed, so it
is the address before. -/
theorem exec_sd_ld {f3 f3' : BitVec 3} {rd rs2 rs1 rb : RegIdx} {imm imm' : BitVec 12} {s : State}
    (hst : (effectiveAddress s rs1 imm).toNat ≤ 1016) (hld : (effectiveAddress s rb imm').toNat ≤ 1016) :
    ∃ t u, exec (.sd f3 rs2 rs1 imm) s = .next t ∧ exec (.ld f3' rd rb imm') t = .next u ∧
      u.reg rd =
        (s.mem.store8 (effectiveAddress s rs1 imm).toNat (s.reg rs2)).load8 (effectiveAddress s rb imm').toNat :=
  ⟨_, _, execSd_of_inRange f3 rs2 rs1 imm hst, execLd_of_inRange f3' rd rb imm' hld, State.setReg_reg_self ..⟩

/-- Byte `k` of a load from `b` after a store to `a`. -/
theorem byteOf_load8_store8 (m : Memory) (a b : Nat) (v : Word) {k : Nat} (hk : k < 8) :
    byteOf ((m.store8 a v).load8 b) k =
      if a ≤ b + k ∧ b + k < a + 8 then byteOf v (b + k - a) else m.readByte (b + k) := by
  rw [byteOf_load8 _ _ _ hk, Memory.readByte_store8]

/-- Settles O26: the loaded value has the eight bytes of the stored one. -/
theorem storeThenLoadReturnsTheStoredValue : Obligations.StoreThenLoadReturnsTheStoredValue := by
  intro f3 f3' rd rs2 rs1 imm s hr
  obtain ⟨t, u, hsd, hld, hu⟩ := exec_sd_ld (f3 := f3) (f3' := f3') (rd := rd) (rs2 := rs2) hr hr
  refine ⟨t, u, hsd, hld, hu.trans (eq_of_byteOf_eq fun k hk => ?_)⟩
  rw [byteOf_load8_store8 _ _ _ _ hk, if_pos (by omega), Nat.add_sub_cancel_left]

/-- Settles O27: the bytes of the load that lie below the store's end are the store's, the others the old memory's. -/
theorem overlappingLoadSeesTheStoredBytes : Obligations.OverlappingLoadSeesTheStoredBytes := by
  intro f3 f3' rd rs2 rs1 rb imm imm' s d h1 h7 hd hr
  have hst : (effectiveAddress s rs1 imm).toNat ≤ 1016 := by omega
  obtain ⟨t, u, hsd, hld, hu⟩ := exec_sd_ld (f3 := f3) (f3' := f3') (rd := rd) (rs2 := rs2) hst hr
  refine ⟨t, u, hsd, hld, fun k hk => ?stored, fun k hk hout => ?old⟩ <;> rw [hu, hd]
  case stored =>
    have hbyte : (effectiveAddress s rs1 imm).toNat + d + k - (effectiveAddress s rs1 imm).toNat = k + d := by omega
    refine (byteOf_load8_store8 _ _ _ _ (by omega)).trans ?_
    rw [if_pos (by omega), hbyte, byteOf]
  case old =>
    refine (byteOf_load8_store8 _ _ _ _ hk).trans ?_
    rw [if_neg (by omega)]

end Sys2Proof.Machine

namespace Sys2Proof.Machine

/-! Branches (45_branch.md R200, R203). -/

section pieces

variable (f3 : BitVec 3) (rs1 rs2 : RegIdx) (i12 : BitVec 1) (i10_5 : BitVec 6) (i4_1 : BitVec 4) (i11 : BitVec 1)

/-- The pieces of an assembled offset stand in its word in the order of R85. -/
theorem encode_assembledBranch :
    encode (.beq f3 rs1 rs2 (i12 ++ i11 ++ i10_5 ++ i4_1 ++ 0#1)) =
      i12 ++ i10_5 ++ rs2 ++ rs1 ++ f3 ++ i4_1 ++ i11 ++ 99#7 := by
  have h12 : (i12 ++ i11 ++ i10_5 ++ i4_1 ++ 0#1).extractLsb' 12 1 = i12 := by
    iterate 4 rw [BitVec.extractLsb'_append_eq_of_le (by decide)]
    exact BitVec.extractLsb'_eq_self
  have h11 : (i12 ++ i11 ++ i10_5 ++ i4_1 ++ 0#1).extractLsb' 11 1 = i11 := by
    iterate 3 rw [BitVec.extractLsb'_append_eq_of_le (by decide)]
    rw [BitVec.extractLsb'_append_eq_of_add_le (by decide)]
    exact BitVec.extractLsb'_eq_self
  have h10_5 : (i12 ++ i11 ++ i10_5 ++ i4_1 ++ 0#1).extractLsb' 5 6 = i10_5 := by
    iterate 2 rw [BitVec.extractLsb'_append_eq_of_le (by decide)]
    rw [BitVec.extractLsb'_append_eq_of_add_le (by decide)]
    exact BitVec.extractLsb'_eq_self
  have h4_1 : (i12 ++ i11 ++ i10_5 ++ i4_1 ++ 0#1).extractLsb' 1 4 = i4_1 := by
    rw [BitVec.extractLsb'_append_eq_of_le (by decide), BitVec.extractLsb'_append_eq_of_add_le (by decide)]
    exact BitVec.extractLsb'_eq_self
  rw [encode, wordSB, h12, h11, h10_5, h4_1]

theorem decode_branchWord :
    decode (i12 ++ i10_5 ++ rs2 ++ rs1 ++ f3 ++ i4_1 ++ i11 ++ 99#7) =
      .ok (.beq f3 rs1 rs2 (i12 ++ i11 ++ i10_5 ++ i4_1 ++ 0#1)) := by
  have heven : (i12 ++ i11 ++ i10_5 ++ i4_1 ++ 0#1).getLsbD 0 = false := by
    rw [BitVec.getLsbD_append]
    rfl
  rw [← encode_assembledBranch]
  exact decode_encode (by rw [Instr.wellFormed, heven, Bool.not_false])

end pieces

/-- Settles O29: `execBeq_eq` names the next state, whose `pc` is the one field that depends on the operands. -/
theorem beqBranchesOnEquality : Obligations.BeqBranchesOnEquality := by
  refine fun f3 rs1 rs2 i12 i10_5 i4_1 i11 => ⟨decode_branchWord .., fun s offset =>
    ⟨_, execBeq_eq f3 rs1 rs2 offset s, fun _ => rfl, fun _ => rfl, ⟨rfl, rfl⟩, tickEnds_advance s _,
      fun heq => ?taken, fun hne => ?notTaken⟩⟩
  case taken =>
    rw [State.advance_pc, if_pos heq]
    exact add_signExtend_toNat (by decide) s.pc offset
  case notTaken => rw [State.advance_pc, if_neg hne, nextInLine]

/-- Settles O30: the sum wraps to within 4096 of 2^64, far above LAST_ADDR. -/
theorem backwardBranchPastZeroHalts : Obligations.BackwardBranchPastZeroHalts := by
  intro f3 rs1 rs2 offset s heq hneg hlast
  have hpc : ((s.pc + sext13 offset).toNat : Int) = 2 ^ 64 + s.pc.toNat + offset.toInt := by
    have hsum := add_signExtend_toNat (n := 13) (by decide) s.pc offset
    have hmin := offset.le_toInt
    rw [sext13, hsum]
    omega
  have hpast : s.lastAddr < s.pc + sext13 offset := by
    have hmin := offset.le_toInt
    rw [BitVec.lt_def]
    omega
  exact ⟨_, exec_beq_of_eq f3 offset heq, by rw [State.advance_status, if_pos hpast], hpc⟩

end Sys2Proof.Machine

namespace Sys2Proof.Machine

/-! A step of a running machine, by what the fetch and the decoder answer (41_tick.md R151, R152, R160). -/

theorem step_of_fetch_miss {s : State} (hrun : s.status = .running) (hfetch : s.fetch = none) :
    step s = .next (s.fail (.instructionFetchFault s.pc)) := by
  have hmiss : fetchDecode s = .error (.instructionFetchFault s.pc) := by simp only [fetchDecode, hfetch]
  rw [step_of_running hrun, hmiss]
  rfl

theorem step_of_decode_ok {s : State} {w : InstrWord} {i : Instr} (hrun : s.status = .running)
    (hfetch : s.fetch = some w) (hi : decode w = .ok i) : step s = exec i s := by
  have hdecode : fetchDecode s = .ok i := by simp only [fetchDecode, hfetch, hi]
  rw [step_of_running hrun, hdecode]

/-- Settles O33: a step adds nothing around `exec`. -/
theorem stepRunsTheDecodedInstruction : Obligations.StepRunsTheDecodedInstruction :=
  fun _ _ _ => step_of_decode_ok

/-- Settles O35: a store without an entry at `pc` gives no word. -/
theorem fetchMissFaults : Obligations.FetchMissFaults :=
  fun _ hrun hne => step_of_fetch_miss hrun (InstrStore.wordAt_of_forall_ne hne)

/-- Settles O32: an entry at `pc` would put `pc` at a multiple of 4. -/
theorem misalignedFetchFaults : Obligations.MisalignedFetchFaults :=
  fun s hrun haligned hpc => fetchMissFaults s hrun fun e he heq => hpc (heq ▸ haligned e he)

/-- Settles O34: the placed entry is the one found at `pc`, and its word decodes to the instruction. -/
theorem placedWordIsTheNextInstruction : Obligations.PlacedWordIsTheNextInstruction := by
  intro s i hwf
  have hword : BitVec.ofNat 32 ((encode i).toNat % 2 ^ 32) = encode i := by
    rw [Nat.mod_eq_of_lt (encode i).isLt, BitVec.ofNat_toNat, BitVec.setWidth_eq]
  have hplaced : s.withFetchWord 32 (encode i).toNat = s.loadAtPc (encode i) := by
    rw [State.withFetchWord, loadTableWord, hword]
  have hfetch : (s.loadAtPc (encode i)).fetch = some (encode i) := by
    rw [State.fetch, State.loadAtPc_imem, State.loadAtPc_pc, InstrStore.wordAt_put, if_pos rfl]
  have hstep := step_of_decode_ok (State.loadAtPc_status ..) hfetch (decode_encode hwf)
  exact ⟨_, hplaced, hstep, fun _ => rfl, rfl, rfl, rfl⟩

/-! The decoder and the ALU control unit go through the same table (R92, R123). -/

theorem aluControl_resolved {f7 : BitVec 7} {f3 : BitVec 3} (h : resolvedPair f7 f3) :
    ∃ op, aluControl 2#2 f7 f3 = some op := by
  obtain ⟨rfl, rfl⟩ | ⟨rfl, rfl⟩ | ⟨rfl, rfl⟩ | ⟨rfl, rfl⟩ | rfl := h <;> simp [aluControl]

theorem aluControl_unresolved {f7 : BitVec 7} {f3 : BitVec 3} (h : ¬ resolvedPair f7 f3) :
    aluControl 2#2 f7 f3 = none := by
  simp only [resolvedPair, not_or] at h
  obtain ⟨hadd, hsub, hand, hor, hsll⟩ := h
  simp only [aluControl, and_comm (a := f3 = _), hadd, hsub, hand, hor, hsll, if_false]
  rfl

/-- An opcode-51 instruction is the tick of the operation the ALU control unit selects, on the two source registers. -/
theorem decodeRType_alu {w : InstrWord} {i : Instr} (h : decodeRType w = .ok i) :
    ∃ op, aluControl 2#2 (funct7Of w) (funct3Of w) = some op ∧
      ∀ s : State, exec i s = aluTick op (rdOf w) (s.reg (rs1Of w)) (s.reg (rs2Of w)) s := by
  obtain ⟨h3, rfl⟩ | ⟨h3, h7, rfl⟩ | ⟨h3, h7, rfl⟩ | ⟨h3, h7, rfl⟩ | ⟨h3, h7, rfl⟩ := decodeRType_ok h
  · exact ⟨.sll, by simp [aluControl, h3], fun _ => rfl⟩
  · exact ⟨.add, by simp [aluControl, h3, h7], fun _ => rfl⟩
  · exact ⟨.sub, by simp [aluControl, h3, h7], fun _ => rfl⟩
  · exact ⟨.and, by simp [aluControl, h3, h7], fun _ => rfl⟩
  · exact ⟨.or, by simp [aluControl, h3, h7], fun _ => rfl⟩

/-- An opcode-19 instruction is the tick of the operation the ALU control unit selects, on the first source register and
the whole sign-extended immediate (R180). -/
theorem decodeIType_alu {w : InstrWord} {i : Instr} (h : decodeIType w = .ok i) :
    ∃ op, aluControl 2#2 (funct7Of w) (funct3Of w) = some op ∧
      ∀ s : State, exec i s = aluTick op (rdOf w) (s.reg (rs1Of w)) (sext12 (immFieldI w)) s := by
  rw [immFieldI_eq]
  obtain ⟨h3, rfl⟩ | ⟨h3, h7, rfl⟩ | ⟨h3, h7, rfl⟩ | ⟨h3, h7, rfl⟩ | ⟨h3, h7, rfl⟩ := decodeIType_ok h
  · exact ⟨.sll, by simp [aluControl, h3], fun s => by rw [exec, execSlli, immFieldI_eq]⟩
  · exact ⟨.add, by simp [aluControl, h3, h7], fun s => by rw [h7]; rfl⟩
  · exact ⟨.sub, by simp [aluControl, h3, h7], fun s => by rw [h7]; rfl⟩
  · exact ⟨.and, by simp [aluControl, h3, h7], fun s => by rw [h7]; rfl⟩
  · exact ⟨.or, by simp [aluControl, h3, h7], fun s => by rw [h7]; rfl⟩

/-! What the blocks do with a fetched word, opcode by opcode (40_blocks.md R114). -/

section datapath

variable {w : InstrWord} (s : State)

theorem datapathTick_unsupported (hop : ¬ supportedOpcode (opcodeOf w)) :
    datapathTick w s = raiseFault (.unsupportedOpcode w) s := by
  simp [datapathTick, controlUnit_unsupported hop]

theorem datapathTick_unresolved (hop : opcodeOf w = 51#7 ∨ opcodeOf w = 19#7)
    (hpair : ¬ resolvedPair (funct7Of w) (funct3Of w)) :
    datapathTick w s = raiseFault (.unresolvedAluOperation 2#2 (funct7Of w) (funct3Of w)) s := by
  obtain hop | hop := hop <;> simp [datapathTick, controlUnit, hop, aluControl_unresolved hpair]

theorem datapathTick_rType {op : AluOp} (hop : opcodeOf w = 51#7)
    (hctl : aluControl 2#2 (funct7Of w) (funct3Of w) = some op) :
    datapathTick w s = aluTick op (rdOf w) (s.reg (rs1Of w)) (s.reg (rs2Of w)) s := by
  simp [datapathTick, controlUnit, hop, hctl, operand2Mux, storePort, loadPort, writePort, alu, aluTick, writeBack]

theorem datapathTick_iType {op : AluOp} (hop : opcodeOf w = 19#7)
    (hctl : aluControl 2#2 (funct7Of w) (funct3Of w) = some op) :
    datapathTick w s = aluTick op (rdOf w) (s.reg (rs1Of w)) (sext12 (immFieldI w)) s := by
  simp [datapathTick, controlUnit, hop, hctl, operand2Mux, storePort, loadPort, writePort, alu, aluTick, writeBack,
    immGen_iType]

theorem datapathTick_load (hop : opcodeOf w = 3#7) :
    datapathTick w s = execLd (funct3Of w) (rdOf w) (rs1Of w) (immFieldI w) s := by
  simp only [datapathTick, controlUnit, hop, immGen_iType (.inl hop), aluControl, execLd, effectiveAddress, alu,
    operand2Mux, storePort, loadPort]
  cases hread : memRead s.mem (aluResult .add (s.reg (rs1Of w)) (sext12 (immFieldI w))) <;>
    simp [hread, writePort, writeBack]

theorem datapathTick_store (hop : opcodeOf w = 35#7) :
    datapathTick w s = execSd (funct3Of w) (rs2Of w) (rs1Of w) (immFieldS w) s := by
  simp only [datapathTick, controlUnit, hop, immGen_sType hop, aluControl, execSd, effectiveAddress, alu,
    operand2Mux, storePort, loadPort]
  cases hwrite : memWrite s.mem (aluResult .add (s.reg (rs1Of w)) (sext12 (immFieldS w))) (s.reg (rs2Of w)) <;>
    simp [hwrite, writePort]

theorem datapathTick_branch (hop : opcodeOf w = 99#7) :
    datapathTick w s = execBeq (funct3Of w) (rs1Of w) (rs2Of w) (immFieldSB w) s := by
  simp [datapathTick, controlUnit, hop, immGen_sbType hop, aluControl, execBeq, alu, operand2Mux, storePort,
    loadPort, writePort]

end datapath

/-- Steps 2 to 8 of a running machine on the fetched word, in either description. -/
theorem step_eq_datapathTick {s : State} {w : InstrWord} (hrun : s.status = .running) (hfetch : s.fetch = some w) :
    step s = datapathTick w s := by
  by_cases hop : supportedOpcode (opcodeOf w)
  case neg =>
    rw [step_of_decode_error hrun hfetch (decode_unsupported hop), datapathTick_unsupported s hop]
    rfl
  obtain h | h | h | h | h := hop
  · exact (step_of_decode_ok hrun hfetch (decode_load h)).trans (datapathTick_load s h).symm
  · by_cases hpair : resolvedPair (funct7Of w) (funct3Of w)
    · obtain ⟨i, hi⟩ := decodeIType_resolved hpair
      obtain ⟨op, hctl, hexec⟩ := decodeIType_alu hi
      rw [step_of_decode_ok hrun hfetch ((decode_arithmeticIType h).trans hi), hexec, datapathTick_iType s h hctl]
    · rw [datapathTick_unresolved s (.inr h) hpair]
      exact step_of_decode_error hrun hfetch ((decode_arithmeticIType h).trans (decodeIType_unresolved hpair))
  · exact (step_of_decode_ok hrun hfetch (decode_store h)).trans (datapathTick_store s h).symm
  · by_cases hpair : resolvedPair (funct7Of w) (funct3Of w)
    · obtain ⟨i, hi⟩ := decodeRType_resolved hpair
      obtain ⟨op, hctl, hexec⟩ := decodeRType_alu hi
      rw [step_of_decode_ok hrun hfetch ((decode_rType h).trans hi), hexec, datapathTick_rType s h hctl]
    · rw [datapathTick_unresolved s (.inl h) hpair]
      exact step_of_decode_error hrun hfetch ((decode_rType h).trans (decodeRType_unresolved hpair))
  · exact (step_of_decode_ok hrun hfetch (decode_branch h)).trans (datapathTick_branch s h).symm

/-- Settles O54: on a fetched word by `step_eq_datapathTick`; a fetch miss and an ended machine are the same in both. -/
theorem stepIsTheBlockLevelDatapath : Obligations.StepIsTheBlockLevelDatapath := by
  intro s
  cases hstatus : s.status with
  | running =>
    cases hfetch : s.fetch with
    | none =>
      rw [step_of_fetch_miss hstatus hfetch, datapathStep, hstatus, hfetch]
      rfl
    | some w =>
      rw [step_eq_datapathTick hstatus hfetch, datapathStep, hstatus, hfetch]
  | halted => rw [step_of_ended (by simp [hstatus]), datapathStep, hstatus]; rfl
  | faulted f => rw [step_of_ended (by simp [hstatus]), datapathStep, hstatus]; rfl

end Sys2Proof.Machine

namespace Sys2Proof.Machine

/-! What a tick can do, by the word it fetched: the one inversion that the statements about steps rest on. -/

/-- The address that a load or store word accesses (R53). -/
def wordAddress (w : InstrWord) (s : State) : Word := s.reg (rs1Of w) + immGen w

/-- The causes of a fault in steps 2 to 4 of a tick on the word `w`, with what each records (R212 to R214). -/
inductive Raises (w : InstrWord) (s : State) : Fault → Prop
  /-- No supported opcode. -/
  | unsupported (hop : ¬ supportedOpcode (opcodeOf w)) : Raises w s (.unsupportedOpcode w)
  /-- An arithmetic word without an operation. -/
  | unresolved (hop : opcodeOf w = 51#7 ∨ opcodeOf w = 19#7) (hpair : ¬ resolvedPair (funct7Of w) (funct3Of w)) :
    Raises w s (.unresolvedAluOperation 2#2 (funct7Of w) (funct3Of w))
  /-- An access that leaves data memory. -/
  | outOfRange (hop : opcodeOf w = 3#7 ∨ opcodeOf w = 35#7) (haddr : 1016 < (wordAddress w s).toNat) :
    Raises w s (.addressOutOfRange (wordAddress w s))

/-- `WordTick w s t`: a running machine in state `s` that fetched `w` may end the tick in `t`. -/
inductive WordTick (w : InstrWord) (s : State) : State → Prop
  /-- A fault, which changes `status` alone (R217). -/
  | fault {f : Fault} (hf : Raises w s f) : WordTick w s (s.fail f)
  /-- A completed arithmetic word. -/
  | arithmetic (hop : opcodeOf w = 51#7 ∨ opcodeOf w = 19#7) (v : Word) :
    WordTick w s ((s.setReg (rdOf w) v).advance (nextInLine s))
  /-- A completed load. -/
  | load (hop : opcodeOf w = 3#7) (v : Word) :
    WordTick w s ((s.setReg (rdOf w) v).advance (nextInLine s))
  /-- A completed store. -/
  | store (hop : opcodeOf w = 35#7) (haddr : (wordAddress w s).toNat ≤ 1016) (v : Word) :
    WordTick w s ((s.setMem (s.mem.store8 (wordAddress w s).toNat v)).advance (nextInLine s))
  /-- A branch, taken or not. -/
  | branch (hop : opcodeOf w = 99#7) :
    WordTick w s (s.advance (if s.reg (rs1Of w) = s.reg (rs2Of w) then s.pc + immGen w else nextInLine s))

theorem wordAddress_of_load {w : InstrWord} (h : opcodeOf w = 3#7) (s : State) :
    effectiveAddress s (rs1Of w) (immFieldI w) = wordAddress w s := by
  rw [wordAddress, immGen_iType (.inl h)]
  rfl

theorem wordAddress_of_store {w : InstrWord} (h : opcodeOf w = 35#7) (s : State) :
    effectiveAddress s (rs1Of w) (immFieldS w) = wordAddress w s := by
  rw [wordAddress, immGen_sType h]
  rfl

theorem datapathTick_of_raises {w : InstrWord} {s : State} {f : Fault} (h : Raises w s f) :
    datapathTick w s = .next (s.fail f) := by
  cases h with
  | unsupported hop => exact datapathTick_unsupported s hop
  | unresolved hop hpair => exact datapathTick_unresolved s hop hpair
  | outOfRange hop haddr =>
    obtain hop | hop := hop
    · rw [← wordAddress_of_load hop] at haddr ⊢
      rw [datapathTick_load s hop, execLd_of_outOfRange _ _ _ _ haddr]
    · rw [← wordAddress_of_store hop] at haddr ⊢
      rw [datapathTick_store s hop, execSd_of_outOfRange _ _ _ _ haddr]

theorem wordTick_of_datapathTick {w : InstrWord} {s t : State} (h : datapathTick w s = .next t) : WordTick w s t := by
  have hfault {f : Fault} (hf : Raises w s f) : WordTick w s t := by
    cases (datapathTick_of_raises hf).symm.trans h
    exact .fault hf
  have harith (ha : opcodeOf w = 51#7 ∨ opcodeOf w = 19#7) : WordTick w s t := by
    by_cases hpair : resolvedPair (funct7Of w) (funct3Of w)
    · obtain ⟨op, hctl⟩ := aluControl_resolved hpair
      obtain h51 | h19 := ha
      · cases (datapathTick_rType s h51 hctl).symm.trans h
        exact .arithmetic (.inl h51) _
      · cases (datapathTick_iType s h19 hctl).symm.trans h
        exact .arithmetic (.inr h19) _
    · exact hfault (.unresolved ha hpair)
  by_cases hop : supportedOpcode (opcodeOf w)
  case neg => exact hfault (.unsupported hop)
  obtain h3 | h19 | h35 | h51 | h99 := hop
  · by_cases hr : (wordAddress w s).toNat ≤ 1016
    · rw [← wordAddress_of_load h3] at hr
      rw [datapathTick_load s h3, execLd_of_inRange _ _ _ _ hr] at h
      cases h
      exact .load h3 _
    · exact hfault (.outOfRange (.inl h3) (Nat.lt_of_not_le hr))
  · exact harith (.inr h19)
  · by_cases hr : (wordAddress w s).toNat ≤ 1016
    · have hin := hr
      rw [← wordAddress_of_store h35] at hin
      rw [datapathTick_store s h35, execSd_of_inRange _ _ _ _ hin, wordAddress_of_store h35] at h
      cases h
      exact .store h35 hr _
    · exact hfault (.outOfRange (.inr h35) (Nat.lt_of_not_le hr))
  · exact harith (.inl h51)
  · rw [datapathTick_branch s h99, execBeq_eq, ← immGen_sbType h99] at h
    cases h
    exact .branch h99

theorem wordTick_of_step {s t : State} {w : InstrWord} (hrun : s.status = .running) (hfetch : s.fetch = some w)
    (h : step s = .next t) : WordTick w s t :=
  wordTick_of_datapathTick ((step_eq_datapathTick hrun hfetch).symm.trans h)

/-- A step of a running machine: the fetch misses, or the fetched word's tick. -/
theorem step_inv {s t : State} (hrun : s.status = .running) (h : step s = .next t) :
    (s.fetch = none ∧ t = s.fail (.instructionFetchFault s.pc)) ∨ ∃ w, s.fetch = some w ∧ WordTick w s t := by
  cases hfetch : s.fetch with
  | none =>
    cases (step_of_fetch_miss hrun hfetch).symm.trans h
    exact .inl ⟨rfl, rfl⟩
  | some w => exact .inr ⟨w, rfl, wordTick_of_step hrun hfetch h⟩

/-! Every tick keeps the invariant (10_state.md R27, R30; 41_tick.md R158). -/

namespace State.Inv

variable {s : State}

theorem fail (h : s.Inv) (f : Fault) : (s.fail f).Inv :=
  ⟨h.mem_wf, h.imem_wf, h.imem_le_last, h.pc_even, nofun, nofun⟩

theorem setReg (h : s.Inv) (r : RegIdx) (v : Word) : (s.setReg r v).Inv :=
  ⟨h.mem_wf, h.imem_wf, h.imem_le_last, h.pc_even, h.running_le, h.halted_gt⟩

theorem setMem (h : s.Inv) {m : Memory} (hm : m.wf) : (s.setMem m).Inv :=
  ⟨hm, h.imem_wf, h.imem_le_last, h.pc_even, h.running_le, h.halted_gt⟩

/-- The terminal check on an even new `pc` makes the status agree with it. -/
theorem advance (h : s.Inv) (hrun : s.status = .running) {p : Word} (hp : p.toNat % 2 = 0) : (s.advance p).Inv where
  mem_wf := h.mem_wf
  imem_wf := h.imem_wf
  imem_le_last := h.imem_le_last
  pc_even := hp
  running_le hst := by
    rw [State.advance_status] at hst
    split at hst
    · cases hst
    · next hle => exact Nat.le_of_not_lt hle
  halted_gt hst := by
    rw [State.advance_status] at hst
    split at hst
    · next hlt => exact hlt
    · cases hrun.symm.trans hst

theorem nextInLine_even (h : s.Inv) : (nextInLine s).toNat % 2 = 0 := by
  have hpc := h.pc_even
  rw [nextInLine, BitVec.toNat_add]
  simp only [BitVec.toNat_ofNat]
  omega

/-- A branch target is even, since the offset is (R85). -/
theorem branchTarget_even (h : s.Inv) {w : InstrWord} (hop : opcodeOf w = 99#7) :
    (s.pc + immGen w).toNat % 2 = 0 := by
  have hpc := h.pc_even
  have hsum := add_signExtend_toNat (n := 13) (by decide) s.pc (immFieldSB w)
  have hvalue := toInt_immFieldSB w
  rw [immGen_sbType hop, sext13]
  split at hvalue <;> omega

end State.Inv

theorem inv_of_wordTick {w : InstrWord} {s t : State} (h : WordTick w s t) (hinv : s.Inv) (hrun : s.status = .running) :
    t.Inv := by
  cases h with
  | fault => exact hinv.fail _
  | arithmetic _ v | load _ v => exact (hinv.setReg _ v).advance hrun hinv.nextInLine_even
  | store _ haddr v =>
    have hmem := Memory.store8_wf hinv.mem_wf (a := (wordAddress w s).toNat) (by simp only [Config.dmemSize]; omega) v
    exact (hinv.setMem hmem).advance hrun hinv.nextInLine_even
  | branch hop =>
    refine hinv.advance hrun ?_
    split
    · exact hinv.branchTarget_even hop
    · exact hinv.nextInLine_even

/-- Settles O53: by the cases of a tick; an ended machine does not move. -/
theorem everyStepKeepsTheInvariant : Obligations.EveryStepKeepsTheInvariant := by
  intro s t hinv h
  by_cases hrun : s.status = .running
  · obtain ⟨-, rfl⟩ | ⟨w, -, hw⟩ := step_inv hrun h
    · exact hinv.fail _
    · exact inv_of_wordTick hw hinv hrun
  · cases (step_of_ended hrun).symm.trans h
    exact hinv

end Sys2Proof.Machine

namespace Sys2Proof.Machine

/-! Faults and completion (60_exceptions.md R217, 41_tick.md R156 to R159). -/

/-- A tick raises a fault and changes nothing but `status`, or it completes. -/
theorem step_fails_or_ends {s t : State} (hrun : s.status = .running) (h : step s = .next t) :
    (∃ f, t = s.fail f) ∨ (TickEnds t.pc s t ∧ ProgramSame s t ∧ ¬ t.Failed) := by
  have hok : ¬ s.Failed := by
    rintro ⟨f, hf⟩
    cases hrun.symm.trans hf
  obtain ⟨-, rfl⟩ | ⟨w, -, hw⟩ := step_inv hrun h
  · exact .inl ⟨_, rfl⟩
  cases hw with
  | fault => exact .inl ⟨_, rfl⟩
  | arithmetic _ v | load _ v =>
    exact .inr ⟨tickEnds_advance (s.setReg (rdOf w) v) _, ⟨rfl, rfl⟩,
      State.advance_not_failed (s := s.setReg _ v) _ hok⟩
  | store _ _ v =>
    exact .inr ⟨tickEnds_advance (s.setMem _) _, ⟨rfl, rfl⟩, State.advance_not_failed (s := s.setMem _) _ hok⟩
  | branch => exact .inr ⟨tickEnds_advance s _, ⟨rfl, rfl⟩, State.advance_not_failed _ hok⟩

theorem step_eq_fail {s t : State} {f : Fault} (hrun : s.status = .running) (h : step s = .next t)
    (hf : t.status = .faulted f) : t = s.fail f := by
  obtain ⟨g, rfl⟩ | ⟨-, -, hok⟩ := step_fails_or_ends hrun h
  · cases hf
    rfl
  · exact absurd ⟨f, hf⟩ hok

/-- Settles O37: the other way to end a tick raises no fault. -/
theorem faultingTickChangesOnlyStatus : Obligations.FaultingTickChangesOnlyStatus :=
  fun _ _ _ => step_eq_fail

theorem step_ends {s t : State} (hrun : s.status = .running) (h : step s = .next t) (hok : ¬ t.Failed) :
    TickEnds t.pc s t ∧ ProgramSame s t := by
  obtain ⟨f, rfl⟩ | ⟨hends, hprog, -⟩ := step_fails_or_ends hrun h
  · exact absurd ⟨f, rfl⟩ hok
  · exact ⟨hends, hprog⟩

/-- Settles O38: the status of a completed tick is the terminal check. -/
theorem completedTickEnds : Obligations.CompletedTickEnds := by
  intro s t hrun h hok
  obtain ⟨⟨-, hclock, hstatus⟩, hprog⟩ := step_ends hrun h hok
  refine ⟨hclock, hprog, ?_⟩
  rw [hstatus, hrun]
  by_cases hpast : s.lastAddr.toNat < t.pc.toNat
  · simp [hpast]
  · simp [hpast, Nat.le_of_not_lt hpast]

/-! The next `pc` (40_blocks.md R133; 10_state.md R26, R27). -/

/-- A branch raises no fault. -/
theorem Raises.not_branch {w : InstrWord} {s : State} {f : Fault} (h : Raises w s f) : opcodeOf w ≠ 99#7 := by
  cases h with
  | unsupported hop => exact fun h99 => hop (.inr (.inr (.inr (.inr h99))))
  | unresolved hop | outOfRange hop => obtain hop | hop := hop <;> simp [hop]

theorem WordTick.pc_of_branch {w : InstrWord} {s t : State} (h : WordTick w s t) (hop : opcodeOf w = 99#7) :
    t.pc = if s.reg (rs1Of w) = s.reg (rs2Of w) then s.pc + immGen w else nextInLine s := by
  cases h with
  | branch => rfl
  | fault hf => exact (hf.not_branch hop).elim
  | arithmetic hop' | load hop' | store hop' => simp [hop] at hop'

theorem WordTick.pc_of_not_branch {w : InstrWord} {s t : State} (h : WordTick w s t) (hop : opcodeOf w ≠ 99#7) :
    (t.Failed ∧ t.pc = s.pc) ∨ t.pc = nextInLine s := by
  cases h with
  | fault => exact .inl ⟨⟨_, rfl⟩, rfl⟩
  | arithmetic | load | store => exact .inr rfl
  | branch hop' => exact absurd hop' hop

/-- Settles O39: by the two lemmas on the `pc` of a word's tick. -/
theorem nextPcFollowsTheBranchRule : Obligations.NextPcFollowsTheBranchRule := by
  intro s t w hrun hfetch h hok
  have hw := wordTick_of_step hrun hfetch h
  refine ⟨fun hop heq => ?taken, fun hnot => ?inLine⟩
  case taken => rw [hw.pc_of_branch hop, if_pos heq]
  case inLine =>
    by_cases hop : opcodeOf w = 99#7
    · rw [hw.pc_of_branch hop, if_neg fun heq => hnot ⟨hop, heq⟩, nextInLine]
    · obtain ⟨hfailed, -⟩ | hpc := hw.pc_of_not_branch hop
      · exact absurd hfailed hok
      · exact hpc

theorem nextInLine_mod4 (s : State) : (nextInLine s).toNat % 4 = s.pc.toNat % 4 := by
  rw [nextInLine, BitVec.toNat_add, BitVec.toNat_ofNat]
  omega

/-- From an aligned `pc` a branch target is misaligned exactly when the offset is 2 modulo 4: bit 1 of the offset is
word bit 8 (R85). -/
theorem branchTarget_mod4 {s : State} {w : InstrWord} (hop : opcodeOf w = 99#7) (hpc : s.pc.toNat % 4 = 0) :
    (s.pc + immGen w).toNat % 4 ≠ 0 ↔ w.getLsbD 8 = true := by
  have hbit : w.getLsbD 8 = decide (w.toNat / 2 ^ 8 % 2 = 1) := Nat.testBit_eq_decide_div_mod_eq
  have hsum := add_signExtend_toNat (n := 13) (by decide) s.pc (immFieldSB w)
  have hvalue := toInt_immFieldSB w
  rw [hbit, decide_eq_true_iff, immGen_sbType hop, sext13]
  split at hvalue <;> omega

/-- Settles O31: only a taken branch adds to `pc` anything but 0 or 4. -/
theorem pcStaysAlignedButForBranchesBy2Mod4 : Obligations.PcStaysAlignedButForBranchesBy2Mod4 := by
  intro s t w hrun hfetch h hpc
  have hw := wordTick_of_step hrun hfetch h
  by_cases hop : opcodeOf w = 99#7
  · rw [hw.pc_of_branch hop]
    by_cases heq : s.reg (rs1Of w) = s.reg (rs2Of w)
    · rw [if_pos heq, branchTarget_mod4 hop hpc]
      simp [hop, heq]
    · simp [heq, nextInLine_mod4, hpc]
  · have haligned : t.pc.toNat % 4 = 0 := by
      obtain ⟨-, hsame⟩ | hline := hw.pc_of_not_branch hop
      · rw [hsame, hpc]
      · rw [hline, nextInLine_mod4, hpc]
    simp [haligned, hop]

/-! Which fault a tick raises (60_exceptions.md R211 to R215). -/

theorem State.advance_status_ne_faulted {s : State} (hrun : s.status = .running) (p : Word) (f : Fault) :
    (s.advance p).status ≠ .faulted f := by
  rw [State.advance_status, hrun]
  split <;> simp

/-- A tick ends in a fault exactly when it has the cause of that fault. -/
theorem faulted_iff_raises {w : InstrWord} {s t : State} (hrun : s.status = .running) (hfetch : s.fetch = some w)
    (h : step s = .next t) (f : Fault) : t.status = .faulted f ↔ Raises w s f := by
  constructor
  · intro hst
    cases wordTick_of_step hrun hfetch h with
    | fault hf =>
      cases hst
      exact hf
    | arithmetic _ v | load _ v => exact absurd hst (State.advance_status_ne_faulted (s := s.setReg _ v) hrun _ _)
    | store => exact absurd hst (State.advance_status_ne_faulted (s := s.setMem _) hrun _ _)
    | branch => exact absurd hst (State.advance_status_ne_faulted hrun _ _)
  · intro hf
    cases ((step_eq_datapathTick hrun hfetch).trans (datapathTick_of_raises hf)).symm.trans h
    rfl

/-- Settles O40: a fetch without an entry raises its fault and no other, a fetched word those of `Raises`. -/
theorem faultsAreRaisedExactlyAsListed : Obligations.FaultsAreRaisedExactlyAsListed := by
  intro s t hrun h
  cases hfetch : s.fetch with
  | none =>
    cases (step_of_fetch_miss hrun hfetch).symm.trans h
    exact ⟨fun p => by simp [eq_comm (a := p)], fun _ => by simp, fun _ _ _ => by simp, fun _ => by simp⟩
  | some w =>
    simp only [faulted_iff_raises hrun hfetch h]
    refine ⟨fun p => ⟨nofun, nofun⟩, fun v => ⟨?_, ?_⟩, fun op f7 f3 => ⟨?_, ?_⟩, fun a => ⟨?_, ?_⟩⟩
    · rintro ⟨hop⟩
      exact ⟨rfl, hop⟩
    · rintro ⟨⟨⟩, hop⟩
      exact .unsupported hop
    · rintro (_ | ⟨hop, hpair⟩)
      exact ⟨rfl, hpair, w, rfl, hop, rfl, rfl⟩
    · rintro ⟨rfl, hpair, _, ⟨⟩, hop, rfl, rfl⟩
      exact .unresolved hop hpair
    · rintro (_ | _ | ⟨hop, haddr⟩)
      exact ⟨haddr, w, rfl, hop, rfl⟩
    · rintro ⟨haddr, _, ⟨⟩, hop, rfl⟩
      exact .outOfRange hop haddr

/-! Which register a tick writes (10_state.md R24). -/

/-- Settles O43: only the arithmetic and load ticks write a register, and it is `x[rd]`. -/
theorem onlyRdChangesAndOnlyForThreeOpcodes : Obligations.OnlyRdChangesAndOnlyForThreeOpcodes := by
  intro s t w r hrun hfetch h hne
  have hrd (v : Word) (hne : (s.setReg (rdOf w) v).reg r ≠ s.reg r) : r = rdOf w := by
    by_contra hr
    exact hne (State.setReg_reg_of_ne s v hr)
  cases wordTick_of_step hrun hfetch h with
  | arithmetic hop v => exact ⟨by simp [or_assoc.symm, hop], hrd v hne⟩
  | load hop v => exact ⟨.inr (.inr hop), hrd v hne⟩
  | fault | store | branch => exact absurd rfl hne

end Sys2Proof.Machine

namespace Sys2Proof.Machine

/-! What the word `addi rd,rs1,imm` does (43_itype.md R181, R183, R186). -/

/-- Settles O47: imm[11:5] is the immediate divided by 32, so it is 0, 32, or has no operation. -/
theorem addiWordByItsImmediate : Obligations.AddiWordByItsImmediate := by
  intro imm rs1 rd s hrun hfetch
  have himm := append_extract12 imm
  have hhigh : (imm.extractLsb' 5 7).toNat = imm.toNat / 32 := by
    have := imm.isLt
    rw [BitVec.extractLsb'_toNat, Nat.shiftRight_eq_div_pow]
    omega
  have hlow : (imm.extractLsb' 0 5).toNat = imm.toNat % 32 := by
    rw [BitVec.extractLsb'_toNat, Nat.shiftRight_zero]
  refine ⟨fun hadd => ?adds, fun hge hle => ?subtracts, fun hout => ?faults⟩
  case adds =>
    have hzero : imm.extractLsb' 5 7 = 0#7 := BitVec.eq_of_toNat_eq (by rw [hhigh, BitVec.toNat_ofNat]; omega)
    rw [← himm, hzero] at hfetch
    have hstep := (step_of_decode_ok hrun hfetch (decode_encode (i := .addi rd rs1 _) rfl)).trans (exec_addi ..)
    refine ⟨_, hstep, ?_⟩
    rw [State.advance_reg, State.setReg_reg_self, BitVec.toNat_add, BitVec.toNat_setWidth_of_le (by decide), hlow,
      Nat.mod_eq_of_lt (by omega : imm.toNat < 32)]
  case subtracts =>
    have h32 : imm.extractLsb' 5 7 = 32#7 := BitVec.eq_of_toNat_eq (by rw [hhigh, BitVec.toNat_ofNat]; omega)
    have hvalue : 1024 + imm.toNat % 32 = imm.toNat := by omega
    rw [← himm, h32] at hfetch
    have hstep :=
      (step_of_decode_ok hrun hfetch (decode_encode (i := .addiF7x20 rd rs1 _) rfl)).trans (exec_addiF7x20 ..)
    refine ⟨_, hstep, ?_⟩
    rw [State.advance_reg, State.setReg_reg_self, toNat_sub_mod, toNat_subtracted, hlow, hvalue]
  case faults =>
    have hpair : ¬ resolvedPair (imm.extractLsb' 5 7) 0#3 := by
      have hzero : imm.extractLsb' 5 7 ≠ 0#7 := fun h => by
        rw [h, BitVec.toNat_ofNat] at hhigh
        omega
      have h32 : imm.extractLsb' 5 7 ≠ 32#7 := fun h => by
        rw [h, BitVec.toNat_ofNat] at hhigh
        omega
      simp [resolvedPair, hzero, h32]
    have hdecode : decode (wordI imm rs1 0#3 rd 19#7) =
        .error (.unresolvedAluOperation (imm.extractLsb' 5 7) 0#3) := by
      rw [wordI_eq, decode_arithmeticIType (opcodeOf_layout ..), decodeIType_unresolved (by simpa using hpair)]
      simp
    exact step_of_decode_error hrun hfetch hdecode

end Sys2Proof.Machine

namespace Sys2Proof.Machine

/-! Runs (70_reset_and_hazards.md R243, R250). -/

theorem run_succ {s t : State} (h : step s = .next t) (k : Nat) :
    Host.Core.run core (k + 1) s = Host.Core.run core k t := by
  simp only [Host.Core.run, core, h]

theorem runsTo_self_of_ended {s : State} (h : s.status ≠ .running) (k : Nat) : RunsTo k s s := by
  induction k with
  | zero => rfl
  | succ k ih => exact (run_succ (step_of_ended h) k).trans ih

/-- One more tick at the end of a run. -/
theorem RunsTo.step {k : Nat} {s t u : State} (h : RunsTo k s t) (hstep : step t = .next u) : RunsTo (k + 1) s u := by
  induction k generalizing s with
  | zero =>
    cases h
    exact run_succ hstep 0
  | succ k ih =>
    obtain ⟨v, hv⟩ := step_eq_next s
    exact (run_succ hv (k + 1)).trans (ih ((run_succ hv k).symm.trans h))

/-- Settles O41: each tick answers the same state. -/
theorem endedMachineIsFrozen : Obligations.EndedMachineIsFrozen :=
  fun _ k h => runsTo_self_of_ended h k

/-- Settles O42: the run stays in its faulted state. -/
theorem faultedRunNeverHalts : Obligations.FaultedRunNeverHalts := by
  rintro s ⟨f, hf⟩ ⟨t, k, hrun, hfinal⟩
  cases (runsTo_self_of_ended (by simp [hf]) k).symm.trans hrun
  cases hf.symm.trans hfinal

/-! What the host reads (70_reset_and_hazards.md R244). -/

/-- Settles O56: the faulted state is the state before the tick with that status, so what is read of it is read of the
state before. -/
theorem hostReadsTheEndOfARun : Obligations.HostReadsTheEndOfARun := by
  refine ⟨fun s t f hrun h hf => ?afterFault, fun s hhalt => ?afterHalt, fun s a n hrun => ?running⟩
  case afterFault =>
    rw [step_eq_fail hrun h hf]
    have hended : (s.fail f).status ≠ .running := by simp
    exact ⟨s.faultCause_fail f, s.beforeFault_fail hrun f, s.observeTick_fail f, State.observePc_of_ended hended,
      fun a n hn => State.observeMemory_of_ended hended hn⟩
  case afterHalt =>
    have hended : s.status ≠ .running := by simp [hhalt]
    exact ⟨State.observePc_of_ended hended, by simp [State.faultCause, hhalt], by simp [State.beforeFault, hhalt],
      fun a n hn => State.observeMemory_of_ended hended hn⟩
  case running =>
    exact ⟨State.observePc_of_running hrun, by simp [State.faultCause, hrun], by simp [State.beforeFault, hrun],
      State.observeMemory_of_running hrun a n⟩

end Sys2Proof.Machine

namespace Sys2Proof.Machine

/-! Reset and launch (10_state.md R37, 70_reset_and_hazards.md R240 to R242). -/

/-- Memory built from bytes reads as those bytes. -/
theorem Memory.readByte_ofBytes (bs : List Byte) {a : Nat} (h : a < bs.length) :
    (Memory.ofBytes 0 bs).readByte a = bs[a] := by
  rw [Memory.ofBytes, Memory.readByte_writeBytes, dif_pos ⟨Nat.zero_le a, h⟩]
  simp

theorem applyReset_readByte (d : DmemInit) (s : State) (a : Nat) (h : a < 1024) :
    (applyReset d s).mem.readByte a = d[a] :=
  (Memory.readByte_ofBytes d.toList (by simpa using h)).trans (by simp)

/-- Settles O48: every field but the program is given its reset value. -/
theorem resetLeavesTheSpecsValues : Obligations.ResetLeavesTheSpecsValues :=
  ⟨⟨rfl, rfl, rfl, State.reset_reg⟩, fun d s =>
    ⟨rfl, rfl, rfl, State.reset_reg, ⟨rfl, rfl⟩, applyReset_readByte d s⟩⟩

/-- Reset over a program in canonical form that LAST_ADDR bounds: pc 0 is even and not past LAST_ADDR. -/
theorem applyReset_inv (d : DmemInit) {s : State} (hwf : s.imem.wf) (hlast : ∀ e ∈ s.imem, e.1 ≤ s.lastAddr.toNat) :
    (applyReset d s).Inv :=
  ⟨Memory.ofBytes_wf (by simp), hwf, hlast, rfl, fun _ => Nat.zero_le _, nofun⟩

/-- Settles O52: both memories are empty. -/
theorem invariantHoldsAfterReset : Obligations.InvariantHoldsAfterReset :=
  ⟨State.reset_mem_wf, by simp [State.reset, InstrStore.wf], nofun, rfl, fun _ => Nat.zero_le _, nofun⟩

theorem distinctAddresses_iff (es : List (Word × InstrWord)) :
    distinctAddresses es = true ↔ (es.map Prod.fst).Nodup := by
  induction es with
  | nil => simp [distinctAddresses]
  | cons e es ih =>
    simp only [distinctAddresses, Bool.and_eq_true, ih, List.map_cons, List.nodup_cons, List.all_eq_true, bne_iff_ne,
      List.mem_map, not_exists, not_and]

theorem isLargestAddress_iff (last : Word) (es : List (Word × InstrWord)) :
    isLargestAddress last es = true ↔ last ∈ es.map Prod.fst ∧ ∀ e ∈ es, e.1.toNat ≤ last.toNat := by
  simp only [isLargestAddress, Bool.and_eq_true, List.any_eq_true, List.all_eq_true, beq_iff_eq, decide_eq_true_iff,
    List.mem_map, BitVec.le_def]

/-- The state a launch starts from. -/
def launchState (es : List (Word × InstrWord)) (last : Word) (d : DmemInit) : State :=
  applyReset d { State.reset with imem := InstrStore.ofEntries es, lastAddr := last }

/-- The boot contract of R242(a), (b) and (d). -/
structure BootContract (es : List (Word × InstrWord)) (last : Word) : Prop where
  ne_nil : es ≠ []
  length_le : es.length ≤ 256
  nodup : (es.map Prod.fst).Nodup
  last_mem : last ∈ es.map Prod.fst
  le_last : ∀ e ∈ es, e.1.toNat ≤ last.toNat

theorem launch_of_contract {es : List (Word × InstrWord)} {last : Word} (h : BootContract es last) (d : DmemInit) :
    launch es last d = .next (launchState es last d) := by
  have hlen := Nat.not_lt.mpr h.length_le
  have hdist := (distinctAddresses_iff es).mpr h.nodup
  have hlast := (isLargestAddress_iff last es).mpr ⟨h.last_mem, h.le_last⟩
  simp only [launch, List.isEmpty_iff, h.ne_nil, Config.imemCap, hlen, hdist, hlast]
  rfl

theorem launch_of_not_contract {es : List (Word × InstrWord)} {last : Word} (h : ¬ BootContract es last)
    (d : DmemInit) : ∃ r, launch es last d = .refused r := by
  unfold launch
  split_ifs with hnil hlen hdist hlast
  · exact ⟨_, rfl⟩
  · exact ⟨_, rfl⟩
  · exact ⟨_, rfl⟩
  · exact ⟨_, rfl⟩
  · rw [Bool.not_eq_true, Bool.not_eq_false'] at hdist hlast
    obtain ⟨hmem, hle⟩ := (isLargestAddress_iff last es).mp hlast
    exact absurd ⟨by simpa using hnil, Nat.le_of_not_lt hlen, (distinctAddresses_iff es).mp hdist, hmem, hle⟩ h

theorem launch_next_iff {es : List (Word × InstrWord)} {last : Word} {d : DmemInit} {s : State} :
    launch es last d = .next s ↔ BootContract es last ∧ s = launchState es last d := by
  by_cases h : BootContract es last
  · simp [launch_of_contract h d, h, eq_comm]
  · obtain ⟨r, hr⟩ := launch_of_not_contract h d
    simp [hr, h]

/-- Settles O49: `launch` tests the four parts of `BootContract` and nothing else. -/
theorem launchAcceptsExactlyTheBootContract : Obligations.LaunchAcceptsExactlyTheBootContract := by
  intro es last d
  refine ⟨⟨?accepted, ?contract⟩, ?total⟩
  case accepted =>
    rintro ⟨s, hs⟩
    obtain ⟨⟨hnil, hlen, hdist, hmem, hle⟩, -⟩ := launch_next_iff.mp hs
    exact ⟨hnil, hlen, hdist, hmem, hle⟩
  case contract =>
    rintro ⟨hnil, hlen, hdist, hmem, hle⟩
    exact ⟨_, launch_of_contract ⟨hnil, hlen, hdist, hmem, hle⟩ d⟩
  case total =>
    by_cases h : BootContract es last
    · exact .inl ⟨_, launch_of_contract h d⟩
    · exact .inr (launch_of_not_contract h d)

/-! The instruction store that a launch builds (R51). -/

namespace InstrStore

theorem wordAt_ofEntries {es : List (Word × InstrWord)} (hdist : (es.map Prod.fst).Nodup) (a : Word) (w : InstrWord) :
    (ofEntries es).wordAt a.toNat = some w ↔ (a, w) ∈ es := by
  induction es with
  | nil => simp [ofEntries, wordAt]
  | cons e es ih =>
    obtain ⟨b, v⟩ := e
    obtain ⟨hb, hdist⟩ := List.nodup_cons.mp hdist
    rw [ofEntries, wordAt_put]
    by_cases hab : a = b
    · subst hab
      have hnot : (a, w) ∉ es := fun hmem => hb (List.mem_map.mpr ⟨_, hmem, rfl⟩)
      simp [hnot, eq_comm]
    · have hne : a.toNat ≠ b.toNat := fun h => hab (BitVec.eq_of_toNat_eq h)
      simp [hne, hab, ih hdist]

theorem ofEntries_sorted (es : List (Word × InstrWord)) : ((ofEntries es).map Prod.fst).Pairwise (· < ·) := by
  induction es with
  | nil => exact List.Pairwise.nil
  | cons e es ih => exact put_sorted ih _ _

theorem mem_ofEntries {es : List (Word × InstrWord)} {e : Nat × InstrWord} (h : e ∈ ofEntries es) :
    ∃ p ∈ es, e.1 = p.1.toNat := by
  induction es with
  | nil => cases h
  | cons p es ih =>
    obtain rfl | h := mem_put h
    · exact ⟨p, List.mem_cons_self, rfl⟩
    · obtain ⟨q, hq, heq⟩ := ih h
      exact ⟨q, List.mem_cons_of_mem _ hq, heq⟩

theorem length_ofEntries_le (es : List (Word × InstrWord)) : (ofEntries es).length ≤ es.length := by
  induction es with
  | nil => exact Nat.le_refl 0
  | cons e es ih => exact (length_put_le _ _ _).trans (Nat.succ_le_succ ih)

theorem ofEntries_wf {es : List (Word × InstrWord)} (h : es.length ≤ 256) : (ofEntries es).wf := by
  refine ⟨ofEntries_sorted es, fun e he => ?_, (length_ofEntries_le es).trans h⟩
  obtain ⟨p, -, hp⟩ := mem_ofEntries he
  exact hp ▸ p.1.isLt

end InstrStore

theorem launchState_inv {es : List (Word × InstrWord)} {last : Word} (h : BootContract es last) (d : DmemInit) :
    (launchState es last d).Inv := by
  refine applyReset_inv d (InstrStore.ofEntries_wf h.length_le) fun e he => ?_
  obtain ⟨p, hp, heq⟩ := InstrStore.mem_ofEntries he
  exact heq ▸ h.le_last p hp

/-- Settles O50: the launched state is `launchState`, whose store holds exactly the entries. -/
theorem launchLoadsTheProgramIntoTheResetState : Obligations.LaunchLoadsTheProgramIntoTheResetState := by
  intro es last d s hs
  obtain ⟨hboot, rfl⟩ := launch_next_iff.mp hs
  exact ⟨rfl, rfl, rfl, State.reset_reg, rfl, InstrStore.wordAt_ofEntries hboot.nodup, applyReset_readByte d _,
    launchState_inv hboot d⟩

/-- Settles O51: the first fetch is at 0 and finds only what the entries hold. -/
theorem firstFetchIsAtAddressZero : Obligations.FirstFetchIsAtAddressZero := by
  intro es last d s hs hzero
  obtain ⟨hpc, -, hrun, -, -, hfetch, -, -⟩ := launchLoadsTheProgramIntoTheResetState es last d s hs
  have hmiss : s.fetch = none := by
    rw [State.fetch, Option.eq_none_iff_forall_ne_some]
    exact fun w hw => hzero _ ((hfetch s.pc w).mp hw) hpc
  rw [← hpc]
  exact step_of_fetch_miss hrun hmiss

end Sys2Proof.Machine

namespace Sys2Proof.Machine

/-! Straight-line programs in the standard layout (20_memory.md R51, 41_tick.md R161, 95_test_vectors.md S8). -/

section layout

variable (a : Word) (ws : List InstrWord)

@[simp] theorem length_standardLayout : (standardLayout a ws).length = ws.length := by
  induction ws generalizing a with
  | nil => rfl
  | cons w ws ih => simp [standardLayout, ih]

theorem words_standardLayout : (standardLayout a ws).map Prod.snd = ws := by
  induction ws generalizing a with
  | nil => rfl
  | cons w ws ih => simp [standardLayout, ih]

theorem addresses_standardLayout :
    (standardLayout a ws).map Prod.fst = (List.range ws.length).map fun k => a + BitVec.ofNat 64 (4 * k) := by
  induction ws generalizing a with
  | nil => rfl
  | cons w ws ih =>
    have hnext (k : Nat) : a + 4#64 + BitVec.ofNat 64 (4 * k) = a + BitVec.ofNat 64 (4 * (k + 1)) := by
      rw [BitVec.add_assoc, Nat.mul_succ, Nat.add_comm, BitVec.ofNat_add]
    simp [standardLayout, ih, List.range_succ_eq_map, hnext]

end layout

/-- LAST_ADDR of a launched straight-line program is the address of its last word. -/
theorem last_of_standardLayout {ws : List InstrWord} {last : Word} (h : BootContract (standardLayout 0#64 ws) last) :
    last.toNat + 4 = 4 * ws.length := by
  have hlen : ws.length ≤ 256 := by simpa using h.length_le
  have haddr (a : Word) : a ∈ (standardLayout 0#64 ws).map Prod.fst ↔ ∃ k < ws.length, BitVec.ofNat 64 (4 * k) = a := by
    simp [addresses_standardLayout]
  have hvalue {k : Nat} (hk : k < ws.length) : (BitVec.ofNat 64 (4 * k)).toNat = 4 * k := by
    rw [BitVec.toNat_ofNat]
    omega
  obtain ⟨k, hk, rfl⟩ := (haddr last).mp h.last_mem
  obtain ⟨e, he, htop⟩ := List.mem_map.mp ((haddr _).mpr ⟨ws.length - 1, by omega, rfl⟩)
  have hle := h.le_last e he
  rw [htop, hvalue (by omega), hvalue hk] at hle
  rw [hvalue hk]
  omega

/-- `s` has run `k` ticks in a straight line and arrived in `t`. -/
structure StraightRun (s : State) (k : Nat) (t : State) : Prop where
  runs : RunsTo k s t
  pc : t.pc.toNat = 4 * k
  clock : t.clock.toNat = k
  program : ProgramSame s t

/-- One more tick of a program without branches: its `pc` moves on by 4, whatever the word is. -/
theorem StraightRun.next {s t : State} {k : Nat} (h : StraightRun s k t) (hk : k < 256) (hsafe : SafeRun s)
    (hrun : t.status = .running) (hword : ∀ w, t.fetch = some w → opcodeOf w ≠ 99#7) :
    ∃ u, StraightRun s (k + 1) u ∧ u.status = if s.lastAddr.toNat < 4 * (k + 1) then .halted else .running := by
  obtain ⟨u, hu⟩ := step_eq_next t
  have hruns := h.runs.step hu
  have hok := hsafe _ _ hruns
  obtain ⟨⟨-, hclock, hstatus⟩, himem, hlast⟩ := step_ends hrun hu hok
  have hpc : u.pc = nextInLine t := by
    obtain ⟨-, rfl⟩ | ⟨w, hw, htick⟩ := step_inv hrun hu
    · exact absurd ⟨_, rfl⟩ hok
    · exact (htick.pc_of_not_branch (hword w hw)).resolve_left fun hfail => hok hfail.1
  have hpcNat : u.pc.toNat = 4 * (k + 1) := by
    rw [hpc, nextInLine, BitVec.toNat_add, h.pc, BitVec.toNat_ofNat]
    omega
  have hclockNat : u.clock.toNat = k + 1 := by
    rw [hclock, BitVec.toNat_add, h.clock, BitVec.toNat_ofNat]
    omega
  refine ⟨u, ⟨hruns, hpcNat, hclockNat, himem.trans h.program.1, hlast.trans h.program.2⟩, ?_⟩
  rw [hstatus, hpcNat, h.program.2, hrun]

/-- Settles O55: by induction on the number of ticks; a tick before the last leaves `pc` at most LAST_ADDR, the last one
does not. -/
theorem straightLineProgramHaltsAfterNTicks : Obligations.StraightLineProgramHaltsAfterNTicks := by
  intro ws last d s hs hbranch hsafe
  obtain ⟨hpc, hclock, hrun, -, hlast, hfetch, -, -⟩ := launchLoadsTheProgramIntoTheResetState _ _ _ _ hs
  have hboot := (launch_next_iff.mp hs).1
  have hend := last_of_standardLayout hboot
  have hlen : ws.length ≤ 256 := by simpa using hboot.length_le
  have hword {t : State} (hprog : ProgramSame s t) (w : InstrWord) (hw : t.fetch = some w) : opcodeOf w ≠ 99#7 := by
    rw [State.fetch, hprog.1, hfetch] at hw
    have hmem := List.mem_map_of_mem (f := Prod.snd) hw
    rw [words_standardLayout] at hmem
    exact hbranch w hmem
  have hbefore (k : Nat) (hk : k < ws.length) : ∃ t, StraightRun s k t ∧ t.status = .running := by
    induction k with
    | zero => exact ⟨s, ⟨rfl, by simp [hpc], by simp [hclock], rfl, rfl⟩, hrun⟩
    | succ k ih =>
      obtain ⟨t, ht, htrun⟩ := ih (by omega)
      obtain ⟨u, hu, hstatus⟩ := ht.next (by omega) hsafe htrun (hword ht.program)
      exact ⟨u, hu, by rw [hstatus, if_neg (by rw [hlast]; omega)]⟩
  refine ⟨fun k hk => ?_, ?_⟩
  · obtain ⟨t, ht, htrun⟩ := hbefore k hk
    exact ⟨t, ht.runs, htrun, ht.pc, ht.clock⟩
  · obtain ⟨n, hn⟩ : ∃ n, ws.length = n + 1 := ⟨ws.length - 1, by omega⟩
    obtain ⟨t, ht, htrun⟩ := hbefore n (by omega)
    obtain ⟨u, hu, hstatus⟩ := ht.next (by omega) hsafe htrun (hword ht.program)
    rw [hn]
    exact ⟨u, hu.runs, by rw [State.Final, hstatus, if_pos (by rw [hlast]; omega)], hu.pc, hu.clock⟩

end Sys2Proof.Machine
